-- ==== Sys2Proof/Word.lean ====
section
/-! DEFINITION. The widths of `radix128_bit_packer` (00_scope.md rules R7 and R9): bytes, 7-bit symbol values,
32-bit operand and response words, the 56-bit group value and the 72-bit command word. -/

namespace Sys2Proof

/-- A raw byte or a symbol byte: 8 bits, value 0 to 255 (00_scope.md R9). -/
abbrev Byte := BitVec 8

/-- A 7-bit symbol value, 0 to 127 (00_scope.md R9, R11 "symbol value"). -/
abbrev Sym := BitVec 7

/-- An operand field or a response register: `XLEN` = 32 bits (00_scope.md R7). -/
abbrev Word := BitVec 32

/-- The 56-bit group value `B` (00_scope.md R7 "accumulator width"; 10_state.md R32). -/
abbrev Group := BitVec 56

/-- One 72-bit command word, delivered whole by the host (30_encoding.md R70). -/
abbrev CmdWord := BitVec 72

/-- Raw bytes per full group (00_scope.md R7). -/
abbrev rawPerGroup : Nat := 7

/-- Symbols per full group (00_scope.md R7). -/
abbrev symPerGroup : Nat := 8

end Sys2Proof
end

