-- ==== Sys2Proof/Syntax.lean ====
section
/-! DEFINITION. The commands of `radix128_bit_packer`: one constructor per row of spec/opcode_table.json
(30_encoding.md R73). Operands are the signed integers R71 and R72 say the fields are; the fields a format ignores
(R75) are no part of the command. -/

namespace Sys2Proof

/-- The eight commands (30_encoding.md R73). -/
inductive Instr where
  /-- BULK_ENC `offset, length` (42_bulk_transcoder.md R120), format R. -/
  | bulkEnc (offset length : Int)
  /-- BULK_DEC `offset, length` (42_bulk_transcoder.md R121), format R. -/
  | bulkDec (offset length : Int)
  /-- ENC_INIT (43_stream_encoder.md R142), format Z. -/
  | encInit
  /-- ENC_WRITE `offset, length` (43_stream_encoder.md R143), format R. -/
  | encWrite (offset length : Int)
  /-- ENC_FLUSH (43_stream_encoder.md R144), format Z. -/
  | encFlush
  /-- DEC_INIT (44_stream_decoder.md R162), format Z. -/
  | decInit
  /-- DEC_READ `count` (44_stream_decoder.md R163), format N. -/
  | decRead (count : Int)
  /-- DEC_AVAIL `p` (44_stream_decoder.md R167), format N. -/
  | decAvail (p : Int)
deriving DecidableEq, Repr

end Sys2Proof
end

