-- ==== Sys2Proof/WellFormed.lean ====
section
/-! DEFINITION. Which commands a command word can carry: every operand the command uses is a two's-complement
signed 32-bit integer, in `-2^31 .. 2^31 - 1` (30_encoding.md R72). -/

namespace Sys2Proof

/-- `x` is in the range of `signed32` (00_scope.md R9, 30_encoding.md R72). -/
def isSigned32 (x : Int) : Bool := decide (-(2 ^ 31 : Int) ≤ x) && decide (x ≤ 2 ^ 31 - 1)

/-- Every operand of the command is presentable in its 32-bit field. -/
def Instr.wellFormed : Instr → Bool
  | .bulkEnc offset length => isSigned32 offset && isSigned32 length
  | .bulkDec offset length => isSigned32 offset && isSigned32 length
  | .encInit => true
  | .encWrite offset length => isSigned32 offset && isSigned32 length
  | .encFlush => true
  | .decInit => true
  | .decRead count => isSigned32 count
  | .decAvail p => isSigned32 p

/-- The command can be presented in a command word. -/
abbrev Instr.WellFormed (i : Instr) : Prop := i.wellFormed = true

end Sys2Proof
end

