-- ==== Sys2Proof/Decode.lean ====
section
/-! DEFINITION. The command word: its fields, a decoder that is total on every 72-bit word and rejects the unassigned
opcodes by name (30_encoding.md R70 to R76), the encoder written from the same map, and the pseudo-commands of R79. -/

namespace Sys2Proof

/-- Why a word is no command. -/
inductive DecodeError where
  /-- `OP` is 0x00 or 0x09 to 0xFF and selects no command (30_encoding.md R74). -/
  | unassignedOp (op : Byte)
deriving DecidableEq, Repr

/-- The `OP` field, bits 71:64 (30_encoding.md R70). -/
def opField (w : CmdWord) : Byte := w.extractLsb' 64 8

/-- The `A` field, bits 63:32 (30_encoding.md R70). -/
def aField (w : CmdWord) : Word := w.extractLsb' 32 32

/-- The `B` field, bits 31:0 (30_encoding.md R70). -/
def bField (w : CmdWord) : Word := w.extractLsb' 0 32

/-- The word made of the three fields, `OP | A | B` (30_encoding.md R70). -/
def mkWord (op : Byte) (a b : Word) : CmdWord := op ++ a ++ b

/-- `signed32(w)`: a 32-bit field read as two's complement (00_scope.md R9, 30_encoding.md R72). -/
def signed32 (w : Word) : Int := w.toInt

/-- The field that carries a signed 32-bit integer. -/
def fieldOf (x : Int) : Word := BitVec.ofInt 32 x

/-- Decoding is a function of the word, `OP` alone selects the command, and the fields a format does not use are
ignored (30_encoding.md R73 to R76). -/
def decode (w : CmdWord) : Except DecodeError Instr :=
  match (opField w).toNat with
  | 0x01 => .ok (.bulkEnc (signed32 (aField w)) (signed32 (bField w)))
  | 0x02 => .ok (.bulkDec (signed32 (aField w)) (signed32 (bField w)))
  | 0x03 => .ok .encInit
  | 0x04 => .ok (.encWrite (signed32 (aField w)) (signed32 (bField w)))
  | 0x05 => .ok .encFlush
  | 0x06 => .ok .decInit
  | 0x07 => .ok (.decRead (signed32 (bField w)))
  | 0x08 => .ok (.decAvail (signed32 (bField w)))
  | _ => .error (.unassignedOp (opField w))

/-- The command word as a number of the opcode table: `nbits` bits, bit 0 the least significant bit of the one 72-bit
word, every bit above them 0. -/
def tableWord (nbits w : Nat) : CmdWord := BitVec.ofNat 72 (w % 2 ^ nbits)

/-- What the decoder reads from an instruction numbered as spec/opcode_table.json numbers it. -/
def decodeTableWord (nbits w : Nat) : Option Instr :=
  match decode (tableWord nbits w) with
  | .ok i => some i
  | .error _ => none

/-- The `OP` value of a command (30_encoding.md R73). -/
def opcode : Instr → Byte
  | .bulkEnc _ _ => 0x01
  | .bulkDec _ _ => 0x02
  | .encInit => 0x03
  | .encWrite _ _ => 0x04
  | .encFlush => 0x05
  | .decInit => 0x06
  | .decRead _ => 0x07
  | .decAvail _ => 0x08

/-- The word of a command; the fields its format does not use are 0, as 30_encoding.md R75 asks of a host. -/
def encode : Instr → CmdWord
  | .bulkEnc offset length => mkWord 0x01 (fieldOf offset) (fieldOf length)
  | .bulkDec offset length => mkWord 0x02 (fieldOf offset) (fieldOf length)
  | .encInit => mkWord 0x03 0 0
  | .encWrite offset length => mkWord 0x04 (fieldOf offset) (fieldOf length)
  | .encFlush => mkWord 0x05 0 0
  | .decInit => mkWord 0x06 0 0
  | .decRead count => mkWord 0x07 0 (fieldOf count)
  | .decAvail p => mkWord 0x08 0 (fieldOf p)

/-- The command uses field `A`: format R (30_encoding.md R70). -/
def usesA : Instr → Bool
  | .bulkEnc _ _ => true
  | .bulkDec _ _ => true
  | .encInit => false
  | .encWrite _ _ => true
  | .encFlush => false
  | .decInit => false
  | .decRead _ => false
  | .decAvail _ => false

/-- The command uses field `B`: formats R and N (30_encoding.md R70). -/
def usesB : Instr → Bool
  | .bulkEnc _ _ => true
  | .bulkDec _ _ => true
  | .encInit => false
  | .encWrite _ _ => true
  | .encFlush => false
  | .decInit => false
  | .decRead _ => true
  | .decAvail _ => true

/-- Pseudo-command `ENC_BYTE off` (30_encoding.md R79). -/
def pseudoEncByte (off : Int) : List Instr := [.encWrite off 1]

/-- Pseudo-command `ENC_ALL off, len` (30_encoding.md R79). -/
def pseudoEncAll (off len : Int) : List Instr := [.encWrite off len, .encFlush]

/-- Pseudo-command `DEC_BYTE` (30_encoding.md R79). -/
def pseudoDecByte : List Instr := [.decRead 1]

end Sys2Proof
end

