-- ==== Sys2Proof/Config.lean ====
section
/-! DEFINITION. What an instance fixes and the spec leaves OPEN (00_scope.md R7; 92_eei_decisions.md section 2), and
the free values behind every "unspecified" of the spec (10_state.md R36; 93_implementation_defined.md U6, U8).
Every constant here is opaque: nothing in Lean can evaluate it, so no proof can lean on a value of it. -/

namespace Sys2Proof

/-- The alphabet of the instance, as a permutation of the 256 byte values: `ALPHABET[v]` is the image of `v` for
`v` = 0 to 127 (40_alphabet_rom.md R90). Every injective table of 128 bytes extends to such a permutation, so this
says that the 128 entries are pairwise distinct and nothing else (log entry 1). -/
opaque Config.bytePerm : Equiv.Perm Byte

/-- `IBUF_SIZE` of the instance, `0 <= IBUF_SIZE <= 2^31 - 1` by its width (00_scope.md R7; log entry 2). -/
opaque Config.ibufSize : BitVec 31

/-- How far `RBUF_SIZE` exceeds `enc_len(IBUF_SIZE)`, the least capacity 00_scope.md R7 allows (log entry 2). -/
opaque Config.rbufSlack : Nat

/-- The value of `dec.hold` after hardware reset or DEC_INIT, "unspecified" (10_state.md R24, R36): a free value, by
draw number (log entry 3). It depends on the draw alone, not on the instance: the model's choice (log entry 24). -/
opaque Config.freeHold : Nat → Sym

/-- The byte at an index of `RBUF` that the last bulk command did not write, "unspecified" (20_memory.md R53): a free
value, by draw number and index (log entry 4). It depends on these alone, not on the instance: the model's choice (log
entry 24). -/
opaque Config.staleByte : Nat → Nat → Byte

end Sys2Proof
end

