-- ==== Sys2Proof/Machine/Pack.lean ====
section
/-! DEFINITION. The packing primitives and `barrel_shifter_7bit` (41_pack_primitives.md R100 to R112). All of them work
on 7-bit symbol values, independent of the alphabet (40_alphabet_rom.md R96). -/

namespace Sys2Proof.Machine

/-! ### Length tables -/

/-- `pad(r)`: symbols that carry `r` leftover raw bytes, `0 <= r <= 6` (R100). -/
def pad (r : Nat) : Nat := if r = 0 then 0 else r + 1

/-- `unpad(s)`: whole raw bytes that `s` leftover symbols carry, `0 <= s <= 7` (R101). -/
def unpad (s : Nat) : Nat := if s ≤ 1 then 0 else s - 1

/-- `enc_len(n)`: symbols that encode `n` raw bytes (R102). -/
def encLen (n : Nat) : Nat := 8 * (n / 7) + pad (n % 7)

/-- `dec_len(m)`: raw bytes that `m` symbols decode to, for `m mod 8 ≠ 1` (R103). -/
def decLen (m : Nat) : Nat := 7 * (m / 8) + unpad (m % 8)

/-! ### barrel_shifter_7bit -/

/-- EXTRACT mode: the `j`-th 7-bit chunk of `B` from the top, `(B >> (49 - 7j)) & 0x7F` (R105, R108). -/
def barrelExtract (B : Group) (j : Nat) : Sym := (B >>> (49 - 7 * j)).setWidth 7

/-- ALIGN mode: `(((hold << 7) | v) >> (L - 1)) & 0xFF`, `1 <= L <= 7` (R109). -/
def barrelAlign (hold v : Sym) (L : Nat) : Byte := ((hold ++ v : BitVec 14) >>> (L - 1)).setWidth 8

/-! ### One group -/

/-- The bytes OR-ed into `B` from byte place `i` on: byte `i` at bits `55 - 8i` down to `48 - 8i` (R104). -/
def groupValueFrom : Nat → List Byte → Group
  | _, [] => 0
  | i, b :: bs => (b.setWidth 56 <<< (48 - 8 * i)) ||| groupValueFrom (i + 1) bs

/-- `group_value(l)`: 1 to 7 raw bytes left-aligned in 56 bits, big-endian (R104, 20_memory.md R57). -/
def groupValue (l : List Byte) : Group := groupValueFrom 0 l

/-- How many symbols a group of `r` raw bytes gives: 8 for a full group, else `pad(r)` (R106). -/
def groupSymbols (r : Nat) : Nat := if r = 7 then 8 else pad r

/-- `pack(l)`: the symbol values of one group of 1 to 7 raw bytes (R106). -/
def pack (l : List Byte) : List Sym := (List.range (groupSymbols l.length)).map (barrelExtract (groupValue l))

/-- The symbol values OR-ed into `B` from symbol place `i` on: symbol `i` shifted left by `49 - 7i` (R107). -/
def symbolValueFrom : Nat → List Sym → Group
  | _, [] => 0
  | i, v :: vs => (v.setWidth 56 <<< (49 - 7 * i)) ||| symbolValueFrom (i + 1) vs

/-- How many raw bytes a group of `s` symbols gives: 7 for a full group, else `unpad(s)` (R107). -/
def groupBytes (s : Nat) : Nat := if s = 8 then 7 else unpad s

/-- The `i`-th byte of `B` from the top, `(B >> (48 - 8i)) & 0xFF` (R107). -/
def groupByte (B : Group) (i : Nat) : Byte := (B >>> (48 - 8 * i)).setWidth 8

/-- `unpack(vs)`: the raw bytes of one group of 2 to 8 symbols, the padding bits dropped unexamined (R107). -/
def unpack (vs : List Sym) : List Byte := (List.range (groupBytes vs.length)).map (groupByte (symbolValueFrom 0 vs))

/-! ### A whole range -/

/-- The symbol values of a raw byte sequence: `n div 7` full groups in order, then the tail of `n mod 7` bytes if
there is one (42_bulk_transcoder.md R120). -/
def packAll (raw : List Byte) : List Sym :=
  (List.range (raw.length / 7)).flatMap (fun g => pack ((raw.drop (7 * g)).take 7)) ++
    (if raw.length % 7 > 0 then pack (raw.drop (7 * (raw.length / 7))) else [])

/-- The raw bytes of a symbol sequence: `m div 8` full groups in order, then the tail of `m mod 8` symbols if it has
at least 2 (42_bulk_transcoder.md R121). -/
def unpackAll (vs : List Sym) : List Byte :=
  (List.range (vs.length / 8)).flatMap (fun g => unpack ((vs.drop (8 * g)).take 8)) ++
    (if vs.length % 8 ≥ 2 then unpack (vs.drop (8 * (vs.length / 8))) else [])

/-! ### The symbol-serial decode step and the sizing functions -/

/-- `L = (8 - c) mod 8`: leftover bits, and raw bytes that cost one symbol each, at phase `c` (10_state.md R25). -/
def leftover (c : Nat) : Nat := (8 - c) % 8

/-- `dec_step((c, hold), v)`: the next phase, the next hold and at most one raw byte (R110). -/
def decStep (c : BitVec 3) (hold v : Sym) : BitVec 3 × Sym × Option Byte :=
  (c + 1, v, if leftover c.toNat = 0 then none else some (barrelAlign hold v (leftover c.toNat)))

/-- `need(k, c)`: symbols that must be consumed from phase `c` to produce `k` raw bytes (R111). -/
def need (k c : Nat) : Nat :=
  min (leftover c) k + 8 * ((k - min (leftover c) k) / 7) + pad ((k - min (leftover c) k) % 7)

/-- `avail(p, c)`: raw bytes that `p` symbols yield from phase `c` (R112). -/
def avail (p c : Nat) : Nat :=
  if p ≤ leftover c then p
  else leftover c + 7 * ((p - leftover c) / 8) + unpad ((p - leftover c) % 8)

end Sys2Proof.Machine
end

