-- ==== Sys2Proof/Machine/State.lean ====
section
/-! DEFINITION. The state of one instance of `radix128_bit_packer` with its environment (10_state.md R20, R33, R35),
as plain data; its value after reset (R36); and the reasons a step can stop. -/

namespace Sys2Proof.Machine

/-- The forward table, `FWD_ROM`: 128 words of 8 bits (40_alphabet_rom.md R90, R91). -/
abbrev Alphabet := Vector Byte 128

/-- The parameters of the instance (00_scope.md R7, 10_state.md R35). No step writes them. -/
structure Params where
  /-- `ALPHABET`. -/
  alphabet : Alphabet
  /-- `IBUF_SIZE`. -/
  ibufSize : Nat
  /-- `RBUF_SIZE`. -/
  rbufSize : Nat
deriving DecidableEq, Repr

/-- `enc.buffer` and `enc.count`: the list of exactly `enc.count` pending raw bytes, oldest first (10_state.md R21,
R22; log entry 12). -/
structure EncRegs where
  buffer : List Byte
deriving DecidableEq, Repr

/-- `enc.count`, the view of the one store (10_state.md R21, R22). -/
def EncRegs.count (e : EncRegs) : Nat := e.buffer.length

/-- `dec.remainder` and `dec.hold` (10_state.md R23, R24). -/
structure DecRegs where
  remainder : BitVec 3
  hold : Sym
deriving DecidableEq, Repr

/-- A byte memory as (index, byte) cells: indices strictly rising, no cell equal to what an unlisted index reads as
(log entry 5). -/
abbrev Memory := List Host.Cell

/-- `RBUF` (20_memory.md R53): the bytes the last bulk command wrote, from index 0 upward, and the number of the draw
that stands for every other byte, which is unspecified (log entry 4). -/
structure ResultBuf where
  written : List Byte
  draw : Nat
deriving DecidableEq, Repr

/-- One answer of the source to `pull_src()` (20_memory.md R55). -/
inductive SrcAnswer where
  /-- The next byte, which leaves the source. -/
  | byte (b : Byte)
  /-- `none`: the source yields nothing to this pull. -/
  | short
  /-- The source never answers this pull (60_exceptions.md R201, 93_implementation_defined.md U14). -/
  | silent
deriving DecidableEq, Repr

/-- What the host may do: its moves between commands (20_memory.md R50; 70_reset_and_hazards.md R240), and a reset at
any time (R220). -/
inductive HostEvent where
  /-- Issue a command word (30_encoding.md R70). -/
  | command (w : CmdWord)
  /-- `IBUF[i..] <- bytes` (30_encoding.md R78). -/
  | storeIbuf (index : Nat) (bytes : List Byte)
  /-- Attach a source that will give these answers, `SRC <- ...` (30_encoding.md R78). -/
  | attachSource (answers : List SrcAnswer)
  /-- The attached source gets more to answer with (20_memory.md R55: a source that pauses and resumes). -/
  | feedSource (answers : List SrcAnswer)
  /-- Drain `SINK`, or attach a different, empty sink (70_reset_and_hazards.md R240). -/
  | drainSink
  /-- Drain `DOUT` (70_reset_and_hazards.md R240). -/
  | drainDout
  /-- Hardware reset between commands (70_reset_and_hazards.md R220). -/
  | reset
  /-- Issue a command word and reset the block in the middle of it, once the command has made this many of its stream
  events, before it responds (70_reset_and_hazards.md R220 "at any time"; log entry 23). -/
  | resetDuring (w : CmdWord) (made : Nat)
deriving DecidableEq, Repr

/-- One instance of the block, its parameters and its environment. -/
structure State where
  /-- `ALPHABET` (so both ROMs), `IBUF_SIZE`, `RBUF_SIZE`: parameters of every step (10_state.md R35; log entry
  11). -/
  params : Params
  /-- `enc.buffer[0..6]`, `enc.count` (10_state.md R21, R22). -/
  enc : EncRegs
  /-- `dec.remainder`, `dec.hold` (10_state.md R23, R24). -/
  dec : DecRegs
  /-- `STATUS`, response register 0 (10_state.md R27). -/
  status : Word
  /-- `RLEN`, response register 1 (10_state.md R28). -/
  rlen : Word
  /-- `FINFO`, response register 2 (10_state.md R29). -/
  finfo : Word
  /-- `IBUF` (20_memory.md R51). -/
  ibuf : Memory
  /-- `RBUF` (20_memory.md R53). -/
  rbuf : ResultBuf
  /-- `SRC`: the answers the source will give, in order (20_memory.md R55; log entry 13). -/
  src : List SrcAnswer
  /-- `SINK`: the symbol bytes emitted and not yet drained, oldest first (20_memory.md R54; log entry 14). -/
  sink : List Byte
  /-- `DOUT`: the raw bytes emitted and not yet drained, oldest first (20_memory.md R56). -/
  dout : List Byte
  /-- The host's moves to come, in order (00_scope.md R12; log entry 6). -/
  host : List HostEvent
  /-- The model's own counter of free values drawn (log entries 3, 4 and 20). -/
  draws : Nat
deriving DecidableEq, Repr

/-- Why the machine stops with a fault. The faults of the spec (60_exceptions.md R190) are NOT here: a command that
faults ends with a next state whose response registers say so (R196). -/
inductive Fault where
  /-- Raised by DEC_READ when a pull it makes is never answered: the command does not end (60_exceptions.md R201,
  93_implementation_defined.md U14 "stuck"; log entry 10; the way out by reset is the move `resetDuring`). Safe: the hardware does not go on either. -/
  | sourceSilent
  /-- Raised by the host event `storeIbuf` when it names an index outside `IBUF`, which does not exist
  (20_memory.md R51). Safe: there is no such move on the hardware. -/
  | hostStoreOutsideIbuf
  /-- Raised by `Safety.strictStep` alone, never by `step`: the run ends at a CorruptData, as 60_exceptions.md R205
  advises. Safe: it stops where the block goes on. -/
  | corruptDataEndsRun
deriving DecidableEq, Repr

/-- Why the machine refuses. -/
inductive Refusal where
  /-- Raised by an arm of `exec` whose command has no meaning yet; no arm is one. Safe: nothing runs. -/
  | notModelled (mnemonic : String)
deriving DecidableEq, Repr

/-- The parameters of the instance, all from the opaque constants of Config (00_scope.md R7). -/
def Params.ofConfig : Params where
  alphabet := Vector.ofFn fun i : Fin 128 => Config.bytePerm (BitVec.ofNat 8 i.val)
  ibufSize := Config.ibufSize.toNat
  rbufSize := encLen Config.ibufSize.toNat + Config.rbufSlack

/-- The machine right after reset (10_state.md R36), with nothing in its environment and nothing asked of it yet.
`dec.hold`, which the spec leaves unspecified, is the named value 0 (log entry 7); the environment, which reset does
not touch (70_reset_and_hazards.md R221), is empty (log entry 8). Every instance starts at the same draw, so with the
same unspecified `RBUF` bytes: the model's choice (log entries 20 and 24). -/
def State.reset : State where
  params := Params.ofConfig
  enc := ⟨[]⟩
  dec := ⟨0, 0⟩
  status := 0
  rlen := 0
  finfo := 0
  ibuf := []
  rbuf := ⟨[], 0⟩
  src := []
  sink := []
  dout := []
  host := []
  draws := 1

end Sys2Proof.Machine
end

