-- ==== Sys2Proof/Machine/Alphabet.lean ====
section
/-! DEFINITION. `alphabet_lookup_rom`: the forward table and its inverse (40_alphabet_rom.md R90 to R93). -/

namespace Sys2Proof.Machine

/-- `fwd(v)`: the byte `ALPHABET[v]`, total, no fault (R91). -/
def fwd (a : Alphabet) (v : Sym) : Byte := a[v.toNat]'v.isLt

/-- `inv(b)`: `some i` for the pair `(1, i)` when `b = ALPHABET[i]`, `none` for a non-alphabet byte, whose value the
spec gives no meaning (R93, 93_implementation_defined.md U3). `INV_ROM` is derived from the forward table (R92). -/
def inv (a : Alphabet) (b : Byte) : Option Sym := (a.toList.idxOf? b).map (BitVec.ofNat 7)

/-- The values of symbol bytes in order, or the first byte that is not in the alphabet (42_bulk_transcoder.md R121). -/
def invAll (a : Alphabet) : List Byte → Except Byte (List Sym)
  | [] => .ok []
  | b :: bs =>
    match inv a b with
    | none => .error b
    | some v =>
      match invAll a bs with
      | .error x => .error x
      | .ok vs => .ok (v :: vs)

end Sys2Proof.Machine
end

