-- ==== Sys2Proof/Machine/Flags.lean ====
section
/-! DEFINITION. `STATUS`: its fields and how it is put together (10_state.md R27, R31), and the fault codes
(60_exceptions.md R191, R192, R195). -/

namespace Sys2Proof.Machine

/-- `STATUS` from its fields: `FC` 1:0, `SUB` 3:2, `EOD` 4, `ENC_COUNT` 10:8, `DEC_REM` 14:12, every reserved bit 0
(10_state.md R27). -/
def packStatus (fc sub : BitVec 2) (eod : Bool) (encCount decRem : BitVec 3) : Word :=
  (0 : BitVec 17) ++ decRem ++ (0 : BitVec 1) ++ encCount ++ (0 : BitVec 3) ++ BitVec.ofBool eod ++ sub ++ fc

/-- `FC`, fault class (R27). -/
def statusFC (w : Word) : BitVec 2 := w.extractLsb' 0 2

/-- `SUB`, sub-cause (R27). -/
def statusSUB (w : Word) : BitVec 2 := w.extractLsb' 2 2

/-- `EOD`, end of data (R27). -/
def statusEOD (w : Word) : Bool := w.getLsbD 4

/-- `ENC_COUNT`, copy of `enc.count` (R27). -/
def statusEncCount (w : Word) : BitVec 3 := w.extractLsb' 8 3

/-- `DEC_REM`, copy of `dec.remainder` (R27). -/
def statusDecRem (w : Word) : BitVec 3 := w.extractLsb' 12 3

/-- Which constraint an InvalidRange violates (60_exceptions.md R191). -/
inductive RangeCause where
  | negOffset
  | negLength
  | outOfBounds
deriving DecidableEq, Repr

/-- What a command can raise, with its detail (60_exceptions.md R190 to R193). -/
inductive CmdFault where
  /-- InvalidRange (R191). -/
  | invalidRange (cause : RangeCause)
  /-- CorruptData(BAD_SYMBOL, byte) (R192). -/
  | badSymbol (b : Byte)
  /-- CorruptData(BAD_TAIL, length) (R192). -/
  | badTail (length : Nat)
  /-- IllegalCommand, with the `OP` byte (R193). -/
  | illegalCommand (op : Byte)
deriving DecidableEq, Repr

/-- `STATUS.FC` of a fault (60_exceptions.md R195). -/
def faultFC : CmdFault → BitVec 2
  | .invalidRange _ => 1
  | .badSymbol _ => 2
  | .badTail _ => 2
  | .illegalCommand _ => 3

/-- `STATUS.SUB` of a fault (60_exceptions.md R195). -/
def faultSUB : CmdFault → BitVec 2
  | .invalidRange .negOffset => 0
  | .invalidRange .negLength => 1
  | .invalidRange .outOfBounds => 2
  | .badSymbol _ => 0
  | .badTail _ => 1
  | .illegalCommand _ => 0

/-- `FINFO` of a fault (60_exceptions.md R195). -/
def faultInfo : CmdFault → Word
  | .invalidRange _ => 0
  | .badSymbol b => b.setWidth 32
  | .badTail length => BitVec.ofNat 32 length
  | .illegalCommand op => op.setWidth 32

/-- `EOD` of a DEC_READ of `count` bytes that emitted `o` without a fault (44_stream_decoder.md R165). -/
def eodOf (count : Int) (o : Nat) : Bool := decide (count > 0) && decide (o = 0)

end Sys2Proof.Machine
end

