-- ==== Sys2Proof/Machine/Operands.lean ====
section
/-! DEFINITION. The operand checks: `check_range` over `IBUF` (20_memory.md R64) and the sign test of a count
(60_exceptions.md R191). -/

namespace Sys2Proof.Machine

/-- `check_range(offset, length)` against a buffer of `size` bytes: the first violated constraint in the order of R64,
the sum taken in unbounded integers. -/
def checkRange (size : Nat) (offset length : Int) : Option RangeCause :=
  if offset < 0 then some .negOffset
  else if length < 0 then some .negLength
  else if offset + length > size then some .outOfBounds
  else none

/-- The test of DEC_READ's `count` and DEC_AVAIL's `p`: a negative one is NEG_LENGTH (60_exceptions.md R191). -/
def checkCount (count : Int) : Option RangeCause := if count < 0 then some .negLength else none

end Sys2Proof.Machine
end

