-- ==== Sys2Proof/Machine/Ops.lean ====
section
/-! DEFINITION. The shared operations: the byte memory, the data spaces, the registers, how a command responds, and
how it ends with a fault (20_memory.md, 30_encoding.md R77, 60_exceptions.md R196). -/

namespace Sys2Proof.Machine

/-! ### Byte memory -/

/-- What an index no one has stored to reads as: 0 (log entry 5). -/
def memDefault : Byte := 0

/-- Cells in strictly rising order, all at or above `lo` and below `hi`, none equal to what an unlisted index reads
as. -/
def memWfFrom (lo hi : Nat) : Memory → Bool
  | [] => true
  | (a, b) :: m => decide (lo ≤ a) && decide (a < hi) && decide (b ≠ memDefault) && memWfFrom (a + 1) hi m

/-- The canonical form of a memory of `size` bytes (log entry 5). -/
def Memory.wf (size : Nat) (m : Memory) : Bool := memWfFrom 0 size m

/-- `MemRead`: the byte at index `a` (20_memory.md R52). -/
def memRead : Memory → Nat → Byte
  | [], _ => memDefault
  | (a', b) :: m, a => if a' = a then b else memRead m a

/-- A cell in front, unless it holds what an unlisted index reads as. -/
def memCons (a : Nat) (v : Byte) (m : Memory) : Memory := if v = memDefault then m else (a, v) :: m

/-- Store one byte, keeping the canonical form. -/
def memWrite : Memory → Nat → Byte → Memory
  | [], a, v => memCons a v []
  | (a', b) :: m, a, v =>
    if a < a' then memCons a v ((a', b) :: m)
    else if a = a' then memCons a v m
    else (a', b) :: memWrite m a v

/-- Store bytes from index `a` upward. -/
def memWriteList : Memory → Nat → List Byte → Memory
  | m, _, [] => m
  | m, a, v :: vs => memWriteList (memWrite m a v) (a + 1) vs

/-- The bytes of a range, by ascending index: `IBUF[offset + i]`, `0 <= i < length` (20_memory.md R52, R61). -/
def memRange (m : Memory) (offset length : Nat) : List Byte := (List.range length).map fun i => memRead m (offset + i)

/-- The raw or symbol bytes a range command reads, `IBUF[offset .. offset + length - 1]`. -/
def State.rangeBytes (s : State) (offset length : Int) : List Byte := memRange s.ibuf offset.toNat length.toNat

/-! ### Result buffer -/

/-- `RBUF[i]` as the host reads it after a command: the result below its length, an unspecified byte above it, nothing
outside `RBUF` (20_memory.md R53). -/
def State.readRbuf (s : State) (i : Nat) : Option Byte :=
  if i < s.params.rbufSize then some (s.rbuf.written.getD i (Config.staleByte s.rbuf.draw i)) else none

/-- A bulk command delivers `bytes` from index 0 and leaves every other byte of `RBUF` unspecified: a fresh draw
(20_memory.md R53). -/
def State.setRbuf (s : State) (bytes : List Byte) : State :=
  { s with rbuf := ⟨bytes, s.draws⟩, draws := s.draws + 1 }

/-! ### Registers and streams -/

/-- Write the encoder's registers. -/
def State.setEnc (s : State) (buffer : List Byte) : State := { s with enc := ⟨buffer⟩ }

/-- Write the decoder's registers. -/
def State.setDec (s : State) (d : DecRegs) : State := { s with dec := d }

/-- Put the decoder at a group boundary; `dec.hold` becomes unspecified: a fresh draw (10_state.md R24, R36). -/
def State.clearDec (s : State) : State :=
  { s with dec := ⟨0, Config.freeHold s.draws⟩, draws := s.draws + 1 }

/-- `emit_sink` of bytes in order (20_memory.md R54). -/
def State.emitSink (s : State) (bytes : List Byte) : State := { s with sink := s.sink ++ bytes }

/-- `emit_dout` of bytes in order (20_memory.md R56). -/
def State.emitDout (s : State) (bytes : List Byte) : State := { s with dout := s.dout ++ bytes }

/-- What is left of the source after pulls. -/
def State.setSrc (s : State) (answers : List SrcAnswer) : State := { s with src := answers }

/-- A response register by its number: 0 `STATUS`, 1 `RLEN`, 2 `FINFO`; there is no other (30_encoding.md R77). -/
def State.readResponse (s : State) (n : Nat) : Option Word :=
  match n with
  | 0 => some s.status
  | 1 => some s.rlen
  | 2 => some s.finfo
  | _ => none

/-! ### How a command ends -/

/-- Write the three response registers, the views taken from the state as it is (10_state.md R27 to R29, 30_encoding.md
R77). -/
def State.respondWith (s : State) (fc sub : BitVec 2) (eod : Bool) (rlen finfo : Word) : State :=
  { s with
    status := packStatus fc sub eod (BitVec.ofNat 3 s.enc.count) s.dec.remainder
    rlen := rlen
    finfo := finfo }

/-- The response of a command that did not fault: `FC = 0`, `SUB = 0`, `FINFO = 0`. -/
def State.respond (s : State) (eod : Bool) (rlen : Nat) : State :=
  s.respondWith 0 0 eod (BitVec.ofNat 32 rlen) 0

/-- `raise <Fault>(sub, info)`: the command ends here. `STATUS` takes the codes and the views of the state as it is at
that moment with `EOD = 0`, `FINFO` the detail, `RLEN` the count 60_exceptions.md R197 gives; nothing else happens
(60_exceptions.md R195, R196). There is no return from a fault: the block is ready for the next command (R199). -/
def State.raise (s : State) (f : CmdFault) (rlen : Nat) : State :=
  s.respondWith (faultFC f) (faultSUB f) false (BitVec.ofNat 32 rlen) (faultInfo f)

end Sys2Proof.Machine
end

