-- ==== Sys2Proof/Machine/Bulk.lean ====
section
/-! DEFINITION. The bulk transcoder: BULK_ENC and BULK_DEC (42_bulk_transcoder.md R120 to R129). -/

namespace Sys2Proof.Machine

/-- The symbol bytes that encode a raw byte sequence (42_bulk_transcoder.md R120). -/
def encodeBytes (a : Alphabet) (raw : List Byte) : List Byte := (packAll raw).map (fwd a)

/-- A bulk command ends with a result: `RBUF` holds it, `RLEN` is its length. -/
def State.deliver (s : State) (bytes : List Byte) : State := (s.setRbuf bytes).respond false bytes.length

/-- A bulk command ends with a fault: `RLEN = 0` and all of `RBUF` is unspecified (20_memory.md R53, 60_exceptions.md
R197). -/
def State.raiseBulk (s : State) (f : CmdFault) : State := (s.setRbuf []).raise f 0

/-- The state after BULK_ENC (R120). -/
def bulkEncNext (offset length : Int) (s : State) : State :=
  match checkRange s.params.ibufSize offset length with
  | some cause => s.raiseBulk (.invalidRange cause)
  | none => s.deliver (encodeBytes s.params.alphabet (s.rangeBytes offset length))

/-- BULK_ENC `offset, length` (R120). -/
def execBulkEnc (offset length : Int) (s : State) : Host.Outcome State Fault Refusal :=
  .next (bulkEncNext offset length s)

/-- The state after BULK_DEC (R121): BAD_TAIL is known from the length alone, before any byte is read; then the first
bad byte by index; then the whole result (60_exceptions.md R198). -/
def bulkDecNext (offset length : Int) (s : State) : State :=
  match checkRange s.params.ibufSize offset length with
  | some cause => s.raiseBulk (.invalidRange cause)
  | none =>
    if length.toNat % 8 = 1 then s.raiseBulk (.badTail length.toNat)
    else
      match invAll s.params.alphabet (s.rangeBytes offset length) with
      | .error x => s.raiseBulk (.badSymbol x)
      | .ok vs => s.deliver (unpackAll vs)

/-- BULK_DEC `offset, length` (R121). -/
def execBulkDec (offset length : Int) (s : State) : Host.Outcome State Fault Refusal :=
  .next (bulkDecNext offset length s)

end Sys2Proof.Machine
end

