-- ==== Sys2Proof/Machine/StreamDecoder.lean ====
section
/-! DEFINITION. `streaming_decoder_state_machine`: DEC_INIT, DEC_READ and DEC_AVAIL (44_stream_decoder.md R160 to
R173). -/

namespace Sys2Proof.Machine

/-- How the pulls of one DEC_READ ended (44_stream_decoder.md R163, R164, R170). -/
inductive ReadStop where
  /-- Every pull gave a good symbol. -/
  | complete
  /-- A pull gave `none`: the source is short. -/
  | short
  /-- A pull gave a byte that is not in the alphabet. -/
  | bad (b : Byte)
  /-- A pull was never answered. -/
  | silent
deriving DecidableEq, Repr

/-- What the pulls of one DEC_READ did. -/
structure ReadRun where
  /-- The decoder's registers after them. -/
  dec : DecRegs
  /-- What is left of the source. -/
  src : List SrcAnswer
  /-- The raw bytes emitted, oldest first. -/
  out : List Byte
  /-- How they ended. -/
  stop : ReadStop
deriving DecidableEq, Repr

/-- `dec_push` of a good symbol value: the registers after it and the byte it completes (R161, R169). -/
def decPush (d : DecRegs) (v : Sym) : DecRegs × Option Byte :=
  let r := decStep d.remainder d.hold v
  (⟨r.1, r.2.1⟩, r.2.2)

/-- The loop of DEC_READ: at most `n` pulls in order, each byte emitted before the next pull; it stops at the first
`none` or bad symbol, and nothing it did not examine leaves the source (R163; 20_memory.md R55). A source whose listed
answers are used up yields `none`. -/
def readLoop (a : Alphabet) : List SrcAnswer → Nat → DecRegs → ReadRun
  | answers, 0, d => ⟨d, answers, [], .complete⟩
  | [], _ + 1, d => ⟨d, [], [], .short⟩
  | .short :: rest, _ + 1, d => ⟨d, rest, [], .short⟩
  | .silent :: rest, _ + 1, d => ⟨d, rest, [], .silent⟩
  | .byte b :: rest, n + 1, d =>
    match inv a b with
    | none => ⟨d, rest, [], .bad b⟩
    | some v =>
      let r := readLoop a rest n (decPush d v).1
      { r with out := (decPush d v).2.toList ++ r.out }

/-- DEC_INIT: the decoder is at a group boundary and `dec.hold` has no live bit (R162). -/
def execDecInit (s : State) : Host.Outcome State Fault Refusal := .next (s.clearDec.respond false 0)

/-- The state of the block and its streams after the pulls of a DEC_READ, before it responds. -/
def State.afterRead (s : State) (r : ReadRun) : State := ((s.setDec r.dec).setSrc r.src).emitDout r.out

/-- What a DEC_READ of `count` bytes ends with after its pulls (R163 to R166, R170; 60_exceptions.md R201). -/
def finishRead (count : Int) (s : State) (r : ReadRun) : Host.Outcome State Fault Refusal :=
  match r.stop with
  | .silent => .fault .sourceSilent
  | .bad b => .next ((s.afterRead r).raise (.badSymbol b) r.out.length)
  | _ => .next ((s.afterRead r).respond (eodOf count r.out.length) r.out.length)

/-- The pulls of a DEC_READ of `count` bytes: exactly the symbols that needs, `need(count, dec.remainder)` (R163). -/
def State.readRun (s : State) (count : Int) : ReadRun :=
  readLoop s.params.alphabet s.src (need count.toNat s.dec.remainder.toNat) s.dec

/-- DEC_READ `count` (R163). -/
def execDecRead (count : Int) (s : State) : Host.Outcome State Fault Refusal :=
  match checkCount count with
  | some cause => .next (s.raise (.invalidRange cause) 0)
  | none => finishRead count s (s.readRun count)

/-- The state after DEC_AVAIL (R167). -/
def decAvailNext (p : Int) (s : State) : State :=
  match checkCount p with
  | some cause => s.raise (.invalidRange cause) 0
  | none => s.respond false (avail p.toNat s.dec.remainder.toNat)

/-- DEC_AVAIL `p` (R167): a pure query. -/
def execDecAvail (p : Int) (s : State) : Host.Outcome State Fault Refusal := .next (decAvailNext p s)

end Sys2Proof.Machine
end

