-- ==== Sys2Proof/Machine/StreamEncoder.lean ====
section
/-! DEFINITION. `streaming_encoder_state_machine`: ENC_INIT, ENC_WRITE and ENC_FLUSH (43_stream_encoder.md R140 to
R152). -/

namespace Sys2Proof.Machine

/-- The encoder in the middle of a command: its pending bytes and what the command has emitted so far. -/
structure EncRun where
  buffer : List Byte
  out : List Byte
deriving DecidableEq, Repr

/-- `enc_push(b)`: one raw byte; the seventh of a group emits its 8 symbols at that moment (R141). -/
def encPush (a : Alphabet) (r : EncRun) (b : Byte) : EncRun :=
  if (r.buffer ++ [b]).length = 7 then ⟨[], r.out ++ (pack (r.buffer ++ [b])).map (fwd a)⟩
  else ⟨r.buffer ++ [b], r.out⟩

/-- `enc_push` of each byte in order (R143, R146). -/
def encPushAll (a : Alphabet) (buffer raw : List Byte) : EncRun := raw.foldl (encPush a) ⟨buffer, []⟩

/-- The symbol bytes of the tail that ENC_FLUSH emits; the slots past the pending bytes count as 0 (R144). -/
def tailBytes (a : Alphabet) (buffer : List Byte) : List Byte := if buffer.length > 0 then (pack buffer).map (fwd a) else []

/-- ENC_INIT: the encoder is empty, pending bytes are dropped without trace (R142). -/
def execEncInit (s : State) : Host.Outcome State Fault Refusal := .next ((s.setEnc []).respond false 0)

/-- The state after ENC_WRITE (R143). -/
def encWriteNext (offset length : Int) (s : State) : State :=
  match checkRange s.params.ibufSize offset length with
  | some cause => s.raise (.invalidRange cause) 0
  | none =>
    let r := encPushAll s.params.alphabet s.enc.buffer (s.rangeBytes offset length)
    ((s.setEnc r.buffer).emitSink r.out).respond false r.out.length

/-- ENC_WRITE `offset, length` (R143). -/
def execEncWrite (offset length : Int) (s : State) : Host.Outcome State Fault Refusal :=
  .next (encWriteNext offset length s)

/-- ENC_FLUSH: emit the tail and empty the encoder; `RLEN = pad(c)` (R144). -/
def execEncFlush (s : State) : Host.Outcome State Fault Refusal :=
  .next (((s.setEnc []).emitSink (tailBytes s.params.alphabet s.enc.buffer)).respond false (pad s.enc.count))

end Sys2Proof.Machine
end

