-- ==== Sys2Proof/Machine/Dispatch.lean ====
section
/-! DEFINITION. One arm per command (30_encoding.md R73). -/

namespace Sys2Proof.Machine

def exec (i : Instr) (s : State) : Host.Outcome State Fault Refusal :=
  match i with
  -- bulk transcoder
  | .bulkEnc offset length => Sys2Proof.Machine.execBulkEnc offset length s
  | .bulkDec offset length => Sys2Proof.Machine.execBulkDec offset length s
  -- streaming encoder
  | .encInit => Sys2Proof.Machine.execEncInit s
  | .encWrite offset length => Sys2Proof.Machine.execEncWrite offset length s
  | .encFlush => Sys2Proof.Machine.execEncFlush s
  -- streaming decoder
  | .decInit => Sys2Proof.Machine.execDecInit s
  | .decRead count => Sys2Proof.Machine.execDecRead count s
  | .decAvail p => Sys2Proof.Machine.execDecAvail p s

end Sys2Proof.Machine
end

