-- ==== Sys2Proof/Machine/StreamEvents.lean ====
section
/-! DEFINITION. The accesses of a command that have side effects, as events in the order the command makes them
(20_memory.md R59, R61), and what a hardware reset in the middle of a command leaves of them (70_reset_and_hazards.md
R220, R221; log entry 23). -/

namespace Sys2Proof.Machine

/-- One access with a side effect on a stream (20_memory.md R59). -/
inductive StreamEvent where
  /-- `pull_src()`. -/
  | pull
  /-- `emit_dout(b)`. -/
  | emitDout (b : Byte)
  /-- `emit_sink(b)`. -/
  | emitSink (b : Byte)
deriving DecidableEq, Repr

/-- What one event does to the streams. A pull takes the source's next answer, if one is listed (20_memory.md R55). -/
def State.streamEvent (s : State) : StreamEvent → State
  | .pull => s.setSrc s.src.tail
  | .emitDout b => s.emitDout [b]
  | .emitSink b => s.emitSink [b]

/-- What events in order do to the streams. -/
def State.streamEvents (s : State) (events : List StreamEvent) : State := events.foldl State.streamEvent s

/-- The events of the loop of DEC_READ: a pull, then the byte its symbol completes, before the next pull
(44_stream_decoder.md R163; 20_memory.md R61). A pull that gives no good symbol is the last event. -/
def readEvents (a : Alphabet) : List SrcAnswer → Nat → DecRegs → List StreamEvent
  | _, 0, _ => []
  | [], _ + 1, _ => [.pull]
  | .short :: _, _ + 1, _ => [.pull]
  | .silent :: _, _ + 1, _ => [.pull]
  | .byte b :: rest, n + 1, d =>
    match inv a b with
    | none => [.pull]
    | some v => .pull :: ((decPush d v).2.toList.map .emitDout ++ readEvents a rest n (decPush d v).1)

/-- The stream events of a command issued in `s`, all of them, in order. Bulk commands, the INIT commands and DEC_AVAIL
touch no stream (20_memory.md R54 to R56). -/
def commandEvents (i : Instr) (s : State) : List StreamEvent :=
  match i with
  | .bulkEnc _ _ => []
  | .bulkDec _ _ => []
  | .encInit => []
  | .encWrite offset length =>
    match checkRange s.params.ibufSize offset length with
    | some _ => []
    | none => (encPushAll s.params.alphabet s.enc.buffer (s.rangeBytes offset length)).out.map .emitSink
  | .encFlush => (tailBytes s.params.alphabet s.enc.buffer).map .emitSink
  | .decInit => []
  | .decRead count =>
    match checkCount count with
    | some _ => []
    | none => readEvents s.params.alphabet s.src (need count.toNat s.dec.remainder.toNat) s.dec
  | .decAvail _ => []

/-- Hardware reset: every register of the block as 10_state.md R36 says, `dec.hold` and `RBUF` unspecified (fresh
draws), the parameters and the environment untouched (70_reset_and_hazards.md R220, R221). -/
def State.hardReset (s : State) : State :=
  { (((s.setEnc []).setRbuf []).clearDec) with status := 0, rlen := 0, finfo := 0 }

/-- Hardware reset in the middle of a command, once it has made `made` of its stream events: what it emitted stays
emitted, what it pulled stays consumed, every register is reset and no response is written (70_reset_and_hazards.md
R220, R221). A command that waits for an unanswered pull (R236) has made all of its events. -/
def State.resetDuring (s : State) (i : Instr) (made : Nat) : State :=
  (s.streamEvents ((commandEvents i s).take made)).hardReset

end Sys2Proof.Machine
end

