-- ==== Sys2Proof/Machine/HostPort.lean ====
section
/-! DEFINITION. The command port and the host's other moves (00_scope.md R12; 20_memory.md R50;
70_reset_and_hazards.md R220, R221, R240), and the end of a word that is no command (30_encoding.md R74). -/

namespace Sys2Proof.Machine

/-- Put a command word where the port takes its next command. -/
def State.presentWord (s : State) (w : CmdWord) : State := { s with host := .command w :: s.host }

/-- The host's moves to come after the one being taken. -/
def State.setHost (s : State) (events : List HostEvent) : State := { s with host := events }

/-- A word whose `OP` selects no command raises IllegalCommand with that `OP` and does nothing else (30_encoding.md
R74; 60_exceptions.md R193). -/
def rejectWord (e : DecodeError) (s : State) : State :=
  match e with
  | .unassignedOp op => s.raise (.illegalCommand op) 0

/-- Hardware reset while the block works on a command word; one that is no command touches no stream
(70_reset_and_hazards.md R220; 30_encoding.md R74). -/
def resetDuringWord (w : CmdWord) (made : Nat) (s : State) : State :=
  match decode w with
  | .ok i => s.resetDuring i made
  | .error _ => s.hardReset

/-- The host stores bytes into `IBUF` from an index; an index outside `IBUF` does not exist (20_memory.md R51). -/
def storeIbuf (index : Nat) (bytes : List Byte) (s : State) : Host.Outcome State Fault Refusal :=
  if index + bytes.length ≤ s.params.ibufSize then .next { s with ibuf := memWriteList s.ibuf index bytes }
  else .fault .hostStoreOutsideIbuf

/-- What the port takes from the host. -/
inductive Taken where
  /-- Nothing: the host has no move. -/
  | idle
  /-- A command word, and the state with it taken. -/
  | word (w : CmdWord) (s : State)
  /-- A move between commands is done; what it gives. -/
  | moved (o : Host.Outcome State Fault Refusal)

/-- Take the host's next move. -/
def State.take (s : State) : Taken :=
  match s.host with
  | [] => .idle
  | .command w :: rest => .word w (s.setHost rest)
  | .storeIbuf index bytes :: rest => .moved (storeIbuf index bytes (s.setHost rest))
  | .attachSource answers :: rest => .moved (.next ((s.setHost rest).setSrc answers))
  | .feedSource answers :: rest => .moved (.next ((s.setHost rest).setSrc (s.src ++ answers)))
  | .drainSink :: rest => .moved (.next { s.setHost rest with sink := [] })
  | .drainDout :: rest => .moved (.next { s.setHost rest with dout := [] })
  | .reset :: rest => .moved (.next (s.setHost rest).hardReset)
  | .resetDuring w made :: rest => .moved (.next (resetDuringWord w made (s.setHost rest)))

/-- The commands of a list issued one after another, before whatever the host does next. -/
def State.issue (s : State) (is : List Instr) : State := s.setHost (is.map (fun i => .command (encode i)) ++ s.host)

end Sys2Proof.Machine
end

