-- ==== Sys2Proof/Machine/Step.lean ====
section
/-! DEFINITION. One step: the block takes the host's next move and runs it to completion (00_scope.md R12). -/

namespace Sys2Proof.Machine

/-- One step. A command word is decoded and its command run to its response; a word that is no command raises
IllegalCommand; any other move of the host is done; with no move to take, the block stays as it is (log entry 6). -/
def step (s : State) : Host.Outcome State Fault Refusal :=
  match s.take with
  | .idle => .next s
  | .moved o => o
  | .word w s' =>
    match decode w with
    | .ok i => exec i s'
    | .error e => .next (rejectWord e s')

/-- `s` with that word presented as the host's next move, so that the very next step runs it (log entry 6). -/
def State.withFetchWord (s : State) (nbits w : Nat) : State := s.presentWord (tableWord nbits w)

end Sys2Proof.Machine
end

