-- ==== Sys2Proof/Machine/Instances.lean ====
section
/-! DEFINITION. Several instances of the block (60_exceptions.md R203): each has its own state and environment, and
they share only the constant ROMs. Their free values come from the same opaque functions: the model's choice (log
entry 24). -/

namespace Sys2Proof.Machine

/-- One instance in a system, with why it stopped where it did: a stop is that instance's own. -/
inductive Slot where
  /-- It takes steps. -/
  | running (s : State)
  /-- Its step from `s` stopped, as where a DEC_READ never ends (60_exceptions.md R201). -/
  | stopped (s : State) (f : Fault)
  /-- Its step from `s` was refused. -/
  | refused (s : State) (r : Refusal)
deriving DecidableEq, Repr

/-- The state of an instance; of a stopped one, that in which its last move was presented. -/
def Slot.state : Slot → State
  | .running s => s
  | .stopped s _ => s
  | .refused s _ => s

/-- One step of one instance: its own `step`. A stopped one stays as it is. -/
def Slot.step : Slot → Slot
  | .running s =>
    match Sys2Proof.Machine.step s with
    | .next t => .running t
    | .fault f => .stopped s f
    | .refused r => .refused s r
  | .stopped s f => .stopped s f
  | .refused s r => .refused s r

/-- A system of instances, by position (the hardware gives them no identifier, R203). -/
abbrev System := List Slot

/-- All instances use the same tables (40_alphabet_rom.md R95, 60_exceptions.md R203). -/
def System.sameRom (sys : System) : Prop :=
  ∀ x ∈ sys, ∀ y ∈ sys, x.state.params.alphabet = y.state.params.alphabet

/-- The instance at a position takes one step; a position that holds none does nothing. A system has a next state
whatever that step does: an instance that hangs stops no other (60_exceptions.md R203). -/
def System.step (k : Nat) (sys : System) : System := sys.modify k Slot.step

/-- Instances take steps in the order the environment chooses (log entry 17). -/
def System.run (schedule : List Nat) (sys : System) : System := schedule.foldl (fun sys k => System.step k sys) sys

end Sys2Proof.Machine
end

