-- ==== Sys2Proof/Safety.lean ====
section
/-! DEFINITION. The terms claims about runs use: the states a run can be in, the assumption on the source, commands
one after another, and the reading of CorruptData that ends a run. -/

namespace Sys2Proof.Safety

open Sys2Proof.Machine

/-- What 00_scope.md R7 asks of the parameters: pairwise distinct alphabet bytes, `IBUF_SIZE <= 2^31 - 1`,
`RBUF_SIZE >= enc_len(IBUF_SIZE)`. -/
structure ParamsOk (p : Params) : Prop where
  distinct : p.alphabet.toList.Nodup
  ibufBound : p.ibufSize ≤ 2 ^ 31 - 1
  rbufBound : encLen p.ibufSize ≤ p.rbufSize

/-- What holds of every state between commands. -/
structure Inv (s : State) : Prop where
  /-- The parameters are admissible (00_scope.md R7). -/
  params : ParamsOk s.params
  /-- At most six raw bytes are pending (10_state.md R22). -/
  pending : s.enc.count ≤ 6
  /-- `IBUF` is in canonical form within its size (log entry 5). -/
  ibufWf : Memory.wf s.params.ibufSize s.ibuf = true
  /-- The last bulk result fits `RBUF` (20_memory.md R53). -/
  resultFits : s.rbuf.written.length ≤ s.params.rbufSize
  /-- `STATUS.ENC_COUNT` is a copy of `enc.count` (10_state.md R27). -/
  encView : statusEncCount s.status = BitVec.ofNat 3 s.enc.count
  /-- `STATUS.DEC_REM` is a copy of `dec.remainder` (10_state.md R27). -/
  decView : statusDecRem s.status = s.dec.remainder
  /-- The reserved bits of `STATUS` (7:5, 11, 31:15) read 0 (10_state.md R27). -/
  reserved : s.status &&& (0xFFFF88E0 : Word) = 0
  /-- Without a fault `SUB` and `FINFO` are 0 (10_state.md R27, R29). -/
  noFault : statusFC s.status = 0 → statusSUB s.status = 0 ∧ s.finfo = 0
  /-- End of data is no fault and comes with a count of 0 (44_stream_decoder.md R165). -/
  endOfData : statusEOD s.status = true → statusFC s.status = 0 ∧ s.rlen = 0

/-- The source answers every pull with a byte or `none`: the assumption 70_reset_and_hazards.md R236 says a model
needs. -/
def SourceAnswers (s : State) : Prop := ∀ x ∈ s.src, x ≠ SrcAnswer.silent

/-- The three constraints of 20_memory.md R64 hold of a range over `IBUF`. -/
def RangeOk (s : State) (offset length : Int) : Prop :=
  0 ≤ offset ∧ 0 ≤ length ∧ offset + length ≤ s.params.ibufSize

/-- The bits of a value, most significant first (20_memory.md R57). -/
def bitsMsb {w : Nat} (x : BitVec w) : List Bool := (List.range w).map x.getMsbD

/-- A sequence of bytes or symbol values read as one bit string, first value first (20_memory.md R57). -/
def bitString {w : Nat} (xs : List (BitVec w)) : List Bool := xs.flatMap bitsMsb

/-- The bits of the packed stream already consumed but not yet output: the low `L` bits of `dec.hold` (10_state.md
R25). -/
def leftoverBits (d : DecRegs) : List Bool := (bitsMsb d.hold).drop (7 - leftover d.remainder.toNat)

/-- A source that answers with the symbol bytes of these values, in order. -/
def symbolSource (a : Alphabet) (vs : List Sym) : List SrcAnswer := vs.map fun v => .byte (fwd a v)

/-- One chunk a host presents to the encoder: what it puts in `IBUF` and the range it names. -/
structure Chunk where
  ibuf : Memory
  offset : Int
  length : Int

/-- The raw bytes of a chunk. -/
def Chunk.bytes (c : Chunk) : List Byte := memRange c.ibuf c.offset.toNat c.length.toNat

/-- ENC_WRITE of each chunk in order, the host rewriting `IBUF` before each (70_reset_and_hazards.md R240). -/
def writeChunks : List Chunk → State → Host.Outcome State Fault Refusal
  | [], s => .next s
  | c :: cs, s =>
    match exec (.encWrite c.offset c.length) { s with ibuf := c.ibuf } with
    | .next t => writeChunks cs t
    | .fault f => .fault f
    | .refused r => .refused r

/-- Commands executed one after another, stopping at the first stop (20_memory.md R61). -/
def execAll : List Instr → State → Host.Outcome State Fault Refusal
  | [], s => .next s
  | i :: is, s =>
    match exec i s with
    | .next t => execAll is t
    | .fault f => .fault f
    | .refused r => .refused r

/-- The host's next move is a command word. -/
def commandNext (s : State) : Bool :=
  match s.host with
  | .command _ :: _ => true
  | _ => false

/-- `step`, but a command that ends with CorruptData ends the run: the treatment 60_exceptions.md R205 and
93_implementation_defined.md U1 and U2 advise to a model that wants to prove nothing about what follows (log entry 9). -/
def strictStep (s : State) : Host.Outcome State Fault Refusal :=
  match step s with
  | .next t => if commandNext s && decide (statusFC t.status = 2) then .fault .corruptDataEndsRun else .next t
  | .fault f => .fault f
  | .refused r => .refused r

end Sys2Proof.Safety
end

