-- ==== Sys2Proof/Certificates/Slice0/Obligations.lean ====
section
/-! DEFINITION. The statements for the provers, from the numbered rules of spec/. In every statement about a next state
the response registers are given as `packStatus FC SUB EOD ENC_COUNT DEC_REM`, `RLEN` and `FINFO`; no statement says
what a free value is (log entries 3 and 4); those that compare one block run twice from states with the same count of
draws have the same draw on both sides (log entry 24). -/

open Sys2Proof Sys2Proof.Machine Sys2Proof.Safety

/-! ### The command word -/

/-- 30_encoding.md R70, R72, R73: no bit of a command is dropped on the way through its word. -/
def Obligations.DecodeEncodeRoundTrip : Prop :=
  ∀ i : Instr, i.WellFormed → decode (encode i) = .ok i

/-- 30_encoding.md R70, R72, R75: what a word decodes to is presentable, and its word agrees with the first one in
`OP` and in every field the command uses, and is 0 in the others. -/
def Obligations.DecodedCommandReencodes : Prop :=
  ∀ (w : CmdWord) (i : Instr), decode w = .ok i →
    i.WellFormed ∧ opField (encode i) = opField w ∧
      aField (encode i) = (if usesA i then aField w else 0) ∧
      bField (encode i) = (if usesB i then bField w else 0)

/-- 30_encoding.md R75: any `A` in format N, any `A` and `B` in format Z, selects the same command. -/
def Obligations.UnusedFieldsIgnored : Prop :=
  ∀ (op : Byte) (a a' b b' : Word),
    ((op = 0x07 ∨ op = 0x08) → decode (mkWord op a b) = decode (mkWord op a' b)) ∧
    ((op = 0x03 ∨ op = 0x05 ∨ op = 0x06) → decode (mkWord op a b) = decode (mkWord op a' b'))

/-- 30_encoding.md R74, R76: every 72-bit word is either one of the eight commands (`OP` 1 to 8) or illegal, by name. -/
def Obligations.EveryWordCommandOrIllegal : Prop :=
  ∀ w : CmdWord,
    ((∃ i, decode w = .ok i) ↔ 1 ≤ (opField w).toNat ∧ (opField w).toNat ≤ 8) ∧
    (decode w = .error (.unassignedOp (opField w)) ↔ opField w = 0 ∨ 9 ≤ (opField w).toNat)

/-- 95_test_vectors.md V70, one word of each command, written out from 30_encoding.md R70 and R73. -/
def Obligations.SampleWordsDecode : Prop :=
  decode 0x010000000000000046 = .ok (.bulkEnc 0 70) ∧ decode 0x02000000140000000A = .ok (.bulkDec 20 10) ∧
  decode 0x01FFFFFFFF00000004 = .ok (.bulkEnc (-1) 4) ∧ decode 0x030000000000000000 = .ok .encInit ∧
  decode 0x040000000300000007 = .ok (.encWrite 3 7) ∧ decode 0x05DEADBEEF12345678 = .ok .encFlush ∧
  decode 0x060000000000000000 = .ok .decInit ∧ decode 0x0700000000FFFFFFFB = .ok (.decRead (-5)) ∧
  decode 0x08000000000000000C = .ok (.decAvail 12)

/-! ### The step -/

/-- 00_scope.md R12: a step on a command word runs the command it decodes to, the word taken from the host. -/
def Obligations.StepRunsDecodedCommand : Prop :=
  ∀ (s : State) (w : CmdWord) (rest : List HostEvent) (i : Instr),
    s.host = .command w :: rest → decode w = .ok i → step s = exec i { s with host := rest }

/-- 30_encoding.md R74: a word whose `OP` selects no command raises IllegalCommand (`FC = 3`, `SUB = 0`, `FINFO` the
`OP` byte, `RLEN = 0`, 60_exceptions.md R195 to R197) and changes nothing but the response registers. -/
def Obligations.IllegalWordRaisesOnly : Prop :=
  ∀ (s : State) (w : CmdWord) (rest : List HostEvent), s.host = .command w :: rest →
    (opField w = 0 ∨ 9 ≤ (opField w).toNat) →
    step s = .next { s with
      host := rest
      status := packStatus 3 0 false (BitVec.ofNat 3 s.enc.count) s.dec.remainder
      rlen := 0
      finfo := (opField w).setWidth 32 }

/-- The model's own reading of the host's other moves (log entry 6; 70_reset_and_hazards.md R240): with no move nothing
changes, attaching or feeding a source and draining a sink change that stream alone. -/
def Obligations.HostMovesBetweenCommands : Prop :=
  ∀ (s : State) (rest : List HostEvent) (answers : List SrcAnswer),
    (s.host = [] → step s = .next s) ∧
    (s.host = .attachSource answers :: rest → step s = .next { s with host := rest, src := answers }) ∧
    (s.host = .feedSource answers :: rest → step s = .next { s with host := rest, src := s.src ++ answers }) ∧
    (s.host = .drainSink :: rest → step s = .next { s with host := rest, sink := [] }) ∧
    (s.host = .drainDout :: rest → step s = .next { s with host := rest, dout := [] })

/-- The host's store into `IBUF` (20_memory.md R51, 30_encoding.md R78): the stored range reads as the bytes stored,
every other index as before, and nothing else changes. Outside `IBUF` there is no such move (log entry 6). -/
def Obligations.HostStoreReachesOnlyItsRange : Prop :=
  ∀ (s : State) (rest : List HostEvent) (index : Nat) (bytes : List Byte),
    s.host = .storeIbuf index bytes :: rest → Memory.wf s.params.ibufSize s.ibuf = true →
    (index + bytes.length ≤ s.params.ibufSize →
      ∃ m, step s = .next { s with host := rest, ibuf := m } ∧
        ∀ a, memRead m a =
          if index ≤ a ∧ a < index + bytes.length then bytes.getD (a - index) 0 else memRead s.ibuf a) ∧
    (s.params.ibufSize < index + bytes.length → step s = .fault .hostStoreOutsideIbuf)

/-- 70_reset_and_hazards.md R221 with R220: reset at any time, between commands or in the middle of any word the block
works on, empties the encoder, puts the decoder at a group boundary and the response registers at 0, and does not touch
the environment or the ROMs: what was emitted stays emitted, what was pulled stays consumed. (That a reset in the middle
is a move `resetDuring` is the model's choice, log entry 23.) -/
def Obligations.HardwareResetRegisters : Prop :=
  ∀ (s : State) (e : HostEvent) (rest : List HostEvent), s.host = e :: rest →
    (e = .reset ∨ ∃ w made, e = .resetDuring w made) →
    ∃ t, step s = .next t ∧ t.enc.count = 0 ∧ t.dec.remainder = 0 ∧ t.status = 0 ∧ t.rlen = 0 ∧ t.finfo = 0 ∧
      t.params = s.params ∧ (∀ a, memRead t.ibuf a = memRead s.ibuf a) ∧ t.host = rest ∧
      (e = .reset → t.src = s.src ∧ t.sink = s.sink ∧ t.dout = s.dout) ∧
      (∃ n, t.src = s.src.drop n) ∧ (∃ emitted, t.sink = s.sink ++ emitted) ∧ ∃ out, t.dout = s.dout ++ out

/-- 70_reset_and_hazards.md R220, R221 with 20_memory.md R61: how far a command gets that is reset in its middle. Its
streams are part of the way to where the whole command would bring them, and all the way if `made` is as many stream
events as it makes; the encoder commands have emitted exactly `made` symbol bytes, or all of theirs; and a DEC_READ on
good symbols has pulled `g` of them and emitted every byte they complete but perhaps the last, `made` events in all. (The move `resetDuring` is the model's choice, log entry 23.) -/
def Obligations.ResetDuringCommandKeepsProgress : Prop :=
  ∀ (s : State) (w : CmdWord) (made : Nat) (rest : List HostEvent) (i : Instr),
    s.host = .resetDuring w made :: rest → decode w = .ok i →
    ∃ t, step s = .next t ∧
      (∀ u, exec i s = .next u →
        (∃ n, u.src = t.src.drop n) ∧ (∃ emitted, u.sink = t.sink ++ emitted) ∧ (∃ out, u.dout = t.dout ++ out) ∧
        (i = .encFlush ∨ (∃ o l, i = .encWrite o l) → t.sink = u.sink.take (s.sink.length + made)) ∧
        ((commandEvents i s).length ≤ made → t.src = u.src ∧ t.sink = u.sink ∧ t.dout = u.dout)) ∧
      (∀ (count : Int) (vs : List Sym) (answers : List SrcAnswer), i = .decRead count → 0 ≤ count →
        ParamsOk s.params → vs.length = need count.toNat s.dec.remainder.toNat →
        s.src = symbolSource s.params.alphabet vs ++ answers → made ≤ vs.length + count.toNat →
        ∃ g k, g ≤ vs.length ∧ t.src = symbolSource s.params.alphabet (vs.drop g) ++ answers ∧
          t.dout.length = s.dout.length + k ∧ g + k = made ∧
          (k = avail g s.dec.remainder.toNat ∨ k + 1 = avail g s.dec.remainder.toNat))

/-- 70_reset_and_hazards.md R220: what the reset state holds where the spec gives the value. -/
def Obligations.ResetStateRegisters : Prop :=
  State.reset.enc.count = 0 ∧ State.reset.dec.remainder = 0 ∧ State.reset.status = 0 ∧ State.reset.rlen = 0 ∧
    State.reset.finfo = 0

/-- 30_encoding.md R77: the response registers are read by number, 0, 1, 2, and there is no other. -/
def Obligations.ResponseRegisterNumbers : Prop :=
  ∀ s : State, s.readResponse 0 = some s.status ∧ s.readResponse 1 = some s.rlen ∧
    s.readResponse 2 = some s.finfo ∧ ∀ n, 3 ≤ n → s.readResponse n = none

/-- 20_memory.md R61: a list of well-formed commands handed to the port runs one after another, each complete before
the next, and the host's later moves stay in place. -/
def Obligations.IssuedCommandsRunInOrder : Prop :=
  ∀ (is : List Instr) (s : State), (∀ i ∈ is, i.WellFormed) →
    Host.Core.run Sys2Proof.core is.length (s.issue is) = execAll is s

/-! ### Invariants -/

/-- The reset state meets the invariant. -/
def Obligations.ResetMeetsInvariant : Prop := Inv State.reset

/-- Every step from every state that meets the invariant, by a command, an illegal word, a reset or any other move of
the host, gives a state that meets it: at most six bytes pending (10_state.md R22), `STATUS` a copy of the counters
with its reserved bits 0 (R27), the result within `RBUF` (20_memory.md R53), `IBUF` canonical (log entry 5). -/
def Obligations.StepKeepsInvariant : Prop :=
  ∀ s t : State, Inv s → step s = .next t → Inv t

/-- 70_reset_and_hazards.md R236: with a source that answers every pull, a command word always ends in a next state;
and without that assumption only a DEC_READ that meets an unanswered pull does not (60_exceptions.md R201; log entry
10). -/
def Obligations.CommandsAlwaysEnd : Prop :=
  ∀ (s : State) (w : CmdWord) (rest : List HostEvent), s.host = .command w :: rest →
    (SourceAnswers s → ∃ t, step s = .next t ∧ SourceAnswers t) ∧
    (∀ f, step s = .fault f → f = .sourceSilent ∧ .silent ∈ s.src ∧ ∃ count, decode w = .ok (.decRead count))

/-- 20_memory.md R63: no step of any kind changes what a later lookup returns. -/
def Obligations.RomLookupsNeverChange : Prop :=
  ∀ s t : State, step s = .next t →
    (∀ v, fwd t.params.alphabet v = fwd s.params.alphabet v) ∧
    (∀ b, inv t.params.alphabet b = inv s.params.alphabet b)

/-! ### STATUS -/

/-- 10_state.md R27: the number `STATUS` is, from its fields. -/
def Obligations.StatusLayout : Prop :=
  ∀ (fc sub : BitVec 2) (eod : Bool) (encCount decRem : BitVec 3),
    (packStatus fc sub eod encCount decRem).toNat =
      fc.toNat + 4 * sub.toNat + 16 * eod.toNat + 256 * encCount.toNat + 4096 * decRem.toNat

/-- 10_state.md R31: no command reads the response registers; whatever they hold, a command does the same and rewrites
all three. That unspecified values are the same on both sides is the model's choice (log entry 24). -/
def Obligations.ResponseRegistersAreNotRead : Prop :=
  ∀ (i : Instr) (s : State) (x y z : Word), exec i { s with status := x, rlen := y, finfo := z } = exec i s

/-- 44_stream_decoder.md R165: `EOD` is 1 exactly when a DEC_READ with `count > 0` did not fault and emitted no byte;
so 10_state.md R31's "by DEC_READ only". -/
def Obligations.EndOfDataFlagExactly : Prop :=
  ∀ (i : Instr) (s t : State), exec i s = .next t →
    (statusEOD t.status = true ↔
      ∃ count, i = .decRead count ∧ 0 < count ∧ statusFC t.status = 0 ∧ t.dout = s.dout)

/-- 60_exceptions.md R192, R197: CorruptData comes from BULK_DEC and DEC_READ alone, IllegalCommand from no command at
all, and ENC_FLUSH, ENC_INIT and DEC_INIT cannot fault. -/
def Obligations.WhichCommandsRaiseWhat : Prop :=
  ∀ (i : Instr) (s t : State), exec i s = .next t →
    (statusFC t.status = 2 → (∃ o l, i = .bulkDec o l) ∨ ∃ c, i = .decRead c) ∧
    statusFC t.status ≠ 3 ∧
    (i = .encFlush ∨ i = .encInit ∨ i = .decInit → statusFC t.status = 0)

/-! ### Alphabet and arithmetic -/

/-- 40_alphabet_rom.md R94, for every admissible alphabet. -/
def Obligations.AlphabetRoundTrip : Prop :=
  ∀ a : Alphabet, a.toList.Nodup →
    (∀ v, inv a (fwd a v) = some v) ∧ (∀ b v, inv a b = some v → fwd a v = b) ∧
    ((List.range 256).filter fun n => (inv a (BitVec.ofNat 8 n)).isSome).length = 128

/-- 41_pack_primitives.md R102, R103: `enc_len` is `ceil(8n/7)`, `dec_len` takes it back, and it is never 1 modulo 8. -/
def Obligations.LengthLaws : Prop :=
  ∀ n : Nat, encLen n = (8 * n + 6) / 7 ∧ decLen (encLen n) = n ∧ encLen n % 8 ≠ 1

/-- 41_pack_primitives.md R111, R112: `avail(p, c)` is the largest `k` with `need(k, c) <= p`, and asking for what `k`
bytes need yields exactly `k`. -/
def Obligations.NeedAndAvailAreAdjoint : Prop :=
  ∀ p k c : Nat, c < 8 → (need k c ≤ p ↔ k ≤ avail p c) ∧ avail (need k c) c = k

/-- 41_pack_primitives.md R107: the low `8 - s` bits of the last of `s` symbols of a tail are not examined. -/
def Obligations.PaddingBitsAreIgnored : Prop :=
  ∀ (vs : List Sym) (v v' : Sym), 1 ≤ vs.length → vs.length ≤ 6 →
    v >>> (7 - vs.length) = v' >>> (7 - vs.length) → unpack (vs ++ [v]) = unpack (vs ++ [v'])

/-! ### Bulk transcoder -/

/-- 42_bulk_transcoder.md R120: BULK_ENC. A valid range: `RBUF` holds the 8 symbol bytes of every full group and the
`pad(r)` of the tail, by place; `RLEN = enc_len(n)`. An invalid one: InvalidRange with the sub-cause of the first
violated constraint, `RLEN = 0`. Either way nothing but `RBUF` and the response registers changes. -/
def Obligations.BulkEncDeliversSymbols : Prop :=
  ∀ (s : State) (offset length : Int), ParamsOk s.params →
    ∃ t, exec (.bulkEnc offset length) s = .next t ∧
      (t.params = s.params ∧ t.enc = s.enc ∧ t.dec = s.dec ∧ (∀ a, memRead t.ibuf a = memRead s.ibuf a) ∧
        t.src = s.src ∧ t.sink = s.sink ∧ t.dout = s.dout ∧ t.host = s.host) ∧
      t.finfo = 0 ∧
      (RangeOk s offset length →
        t.status = packStatus 0 0 false (BitVec.ofNat 3 s.enc.count) s.dec.remainder ∧
        t.rlen.toNat = encLen length.toNat ∧
        (∀ g j, g < length.toNat / 7 → j < 8 →
          t.readRbuf (8 * g + j) = some (fwd s.params.alphabet
            (barrelExtract (groupValue (memRange s.ibuf (offset.toNat + 7 * g) 7)) j))) ∧
        (∀ j, j < pad (length.toNat % 7) →
          t.readRbuf (8 * (length.toNat / 7) + j) = some (fwd s.params.alphabet
            (barrelExtract (groupValue
              (memRange s.ibuf (offset.toNat + 7 * (length.toNat / 7)) (length.toNat % 7))) j)))) ∧
      (¬ RangeOk s offset length →
        t.status = packStatus 1 (if offset < 0 then 0 else if length < 0 then 1 else 2) false
          (BitVec.ofNat 3 s.enc.count) s.dec.remainder ∧
        t.rlen = 0)

/-- 20_memory.md R57: the symbols BULK_ENC delivers, read as one bit string, are the raw bytes of the range read as one
bit string, most significant bit first, with 0 bits after the last raw bit to fill the last symbol. -/
def Obligations.BulkEncKeepsTheBitString : Prop :=
  ∀ (s : State) (offset length : Int), ParamsOk s.params → RangeOk s offset length →
    ∃ t vs, exec (.bulkEnc offset length) s = .next t ∧ vs.length = t.rlen.toNat ∧
      (∀ k v, vs[k]? = some v → t.readRbuf k = some (fwd s.params.alphabet v)) ∧
      bitString vs = bitString (s.rangeBytes offset length) ++
        List.replicate (7 * vs.length - 8 * length.toNat) false

/-- 42_bulk_transcoder.md R121: BULK_DEC of a valid range of symbol bytes whose length is not 1 modulo 8: `RBUF` holds
the 7 bytes of every full group and the `unpad(s)` of the tail, by place; `RLEN = dec_len(m)`; nothing but `RBUF` and
the response registers changes. -/
def Obligations.BulkDecDeliversBytes : Prop :=
  ∀ (s : State) (offset length : Int) (vs : Nat → Sym), ParamsOk s.params → RangeOk s offset length →
    length.toNat % 8 ≠ 1 →
    (∀ j, j < length.toNat → memRead s.ibuf (offset.toNat + j) = fwd s.params.alphabet (vs j)) →
    ∃ t, exec (.bulkDec offset length) s = .next t ∧
      (t.params = s.params ∧ t.enc = s.enc ∧ t.dec = s.dec ∧ (∀ a, memRead t.ibuf a = memRead s.ibuf a) ∧
        t.src = s.src ∧ t.sink = s.sink ∧ t.dout = s.dout ∧ t.host = s.host) ∧
      t.status = packStatus 0 0 false (BitVec.ofNat 3 s.enc.count) s.dec.remainder ∧
      t.rlen.toNat = decLen length.toNat ∧ t.finfo = 0 ∧
      (∀ g i, g < length.toNat / 8 → i < 7 →
        t.readRbuf (7 * g + i) =
          some (groupByte (symbolValueFrom 0 ((List.range 8).map fun j => vs (8 * g + j))) i)) ∧
      (∀ i, i < unpad (length.toNat % 8) →
        t.readRbuf (7 * (length.toNat / 8) + i) =
          some (groupByte (symbolValueFrom 0
            ((List.range (length.toNat % 8)).map fun j => vs (8 * (length.toNat / 8) + j))) i))

/-- 42_bulk_transcoder.md R121, 60_exceptions.md R195, R197, R198: how BULK_DEC faults. An invalid range first; then
BAD_TAIL from the length alone, whatever the bytes are; then BAD_SYMBOL for the non-alphabet byte of lowest index. On
each `RLEN = 0` and nothing but `RBUF` and the response registers changes. -/
def Obligations.BulkDecFaults : Prop :=
  ∀ (s : State) (offset length : Int),
    ∃ t, exec (.bulkDec offset length) s = .next t ∧
      (t.params = s.params ∧ t.enc = s.enc ∧ t.dec = s.dec ∧ (∀ a, memRead t.ibuf a = memRead s.ibuf a) ∧
        t.src = s.src ∧ t.sink = s.sink ∧ t.dout = s.dout ∧ t.host = s.host) ∧
      (¬ RangeOk s offset length →
        t.status = packStatus 1 (if offset < 0 then 0 else if length < 0 then 1 else 2) false
          (BitVec.ofNat 3 s.enc.count) s.dec.remainder ∧ t.rlen = 0 ∧ t.finfo = 0) ∧
      (RangeOk s offset length → length.toNat % 8 = 1 →
        t.status = packStatus 2 1 false (BitVec.ofNat 3 s.enc.count) s.dec.remainder ∧ t.rlen = 0 ∧
          t.finfo = BitVec.ofInt 32 length) ∧
      (∀ k, RangeOk s offset length → length.toNat % 8 ≠ 1 → k < length.toNat →
        (∀ v, fwd s.params.alphabet v ≠ memRead s.ibuf (offset.toNat + k)) →
        (∀ j, j < k → ∃ v, fwd s.params.alphabet v = memRead s.ibuf (offset.toNat + j)) →
        t.status = packStatus 2 0 false (BitVec.ofNat 3 s.enc.count) s.dec.remainder ∧ t.rlen = 0 ∧
          t.finfo = (memRead s.ibuf (offset.toNat + k)).setWidth 32)

/-- 42_bulk_transcoder.md R127: every range that violates a constraint makes both bulk commands raise InvalidRange with
`RLEN = 0`, and only such a range does. -/
def Obligations.BulkValidationLaw : Prop :=
  ∀ (s : State) (offset length : Int) (i : Instr), i = .bulkEnc offset length ∨ i = .bulkDec offset length →
    ∃ t, exec i s = .next t ∧
      (statusFC t.status = 1 ↔ offset < 0 ∨ length < 0 ∨ s.params.ibufSize < offset + length) ∧
      (statusFC t.status = 1 → t.rlen = 0 ∧ t.finfo = 0)

/-- 42_bulk_transcoder.md R123: a bulk command neither reads nor writes `enc.*` or `dec.*` (nor any stream): from two
states that differ only there it gives the same result, and leaves each of them exactly where it was. That the bytes of
`RBUF` that 20_memory.md R53 leaves unspecified are the same on both sides, too, is the model's choice (log entry 24). -/
def Obligations.BulkIsStateless : Prop :=
  ∀ (s t u : State) (offset length : Int) (i : Instr), i = .bulkEnc offset length ∨ i = .bulkDec offset length →
    exec i s = .next t →
    t.enc = s.enc ∧ t.dec = s.dec ∧
    exec i { s with enc := u.enc, dec := u.dec, src := u.src, sink := u.sink, dout := u.dout } =
      .next { t with
        enc := u.enc, dec := u.dec, src := u.src, sink := u.sink, dout := u.dout
        status := packStatus (statusFC t.status) (statusSUB t.status) (statusEOD t.status)
          (BitVec.ofNat 3 u.enc.count) u.dec.remainder }

/-- 42_bulk_transcoder.md R126: the result of a bulk command depends on `IBUF` only through the bytes of the range, not
on the offset, on `IBUF_SIZE` or on any other byte. -/
def Obligations.BulkOffsetComposition : Prop :=
  ∀ (s s' : State) (offset offset' length : Int), ParamsOk s.params → ParamsOk s'.params →
    s.params.alphabet = s'.params.alphabet → RangeOk s offset length → RangeOk s' offset' length →
    (∀ k, k < length.toNat → memRead s.ibuf (offset.toNat + k) = memRead s'.ibuf (offset'.toNat + k)) →
    (∃ t t', exec (.bulkEnc offset length) s = .next t ∧ exec (.bulkEnc offset' length) s' = .next t' ∧
      t.rlen = t'.rlen ∧ t.finfo = t'.finfo ∧ statusFC t.status = statusFC t'.status ∧
      statusSUB t.status = statusSUB t'.status ∧ ∀ k, k < t.rlen.toNat → t.readRbuf k = t'.readRbuf k) ∧
    (∃ t t', exec (.bulkDec offset length) s = .next t ∧ exec (.bulkDec offset' length) s' = .next t' ∧
      t.rlen = t'.rlen ∧ t.finfo = t'.finfo ∧ statusFC t.status = statusFC t'.status ∧
      statusSUB t.status = statusSUB t'.status ∧ ∀ k, k < t.rlen.toNat → t.readRbuf k = t'.readRbuf k)

/-- 42_bulk_transcoder.md R128: the bytes BULK_ENC produced, copied anywhere into `IBUF` (of this or of another
instance), decode by BULK_DEC without a fault to exactly the original raw bytes. -/
def Obligations.BulkRoundTrip : Prop :=
  ∀ (s t s' : State) (offset length offset' : Int), ParamsOk s.params → ParamsOk s'.params →
    s.params.alphabet = s'.params.alphabet → RangeOk s offset length →
    exec (.bulkEnc offset length) s = .next t → RangeOk s' offset' t.rlen.toNat →
    (∀ k, k < t.rlen.toNat → some (memRead s'.ibuf (offset'.toNat + k)) = t.readRbuf k) →
    ∃ u, exec (.bulkDec offset' t.rlen.toNat) s' = .next u ∧ statusFC u.status = 0 ∧
      u.rlen.toNat = length.toNat ∧
      ∀ k, k < length.toNat → u.readRbuf k = some (memRead s.ibuf (offset.toNat + k))

/-! ### Streaming encoder -/

/-- 43_stream_encoder.md R142: ENC_INIT. -/
def Obligations.EncInitEmptiesEncoder : Prop :=
  ∀ s : State, exec .encInit s = .next { s with
    enc := ⟨[]⟩
    status := packStatus 0 0 false 0 s.dec.remainder
    rlen := 0
    finfo := 0 }

/-- 43_stream_encoder.md R143: ENC_WRITE of a valid range, in the chunk-level words of the rule: with the bytes pending
before it in front of the chunk, every whole group of 7 is emitted as 8 symbol bytes in order and the rest stays
pending, so `enc.count <- (c0 + length) mod 7` and `RLEN = 8 * ((c0 + length) div 7)`; on an invalid range only the
response registers change. -/
def Obligations.EncWriteStreamsGroups : Prop :=
  ∀ (s : State) (offset length : Int), s.enc.count ≤ 6 →
    (RangeOk s offset length →
      ∃ t, exec (.encWrite offset length) s = .next t ∧
        t = { s with
          enc := ⟨(s.enc.buffer ++ s.rangeBytes offset length).drop
            (7 * ((s.enc.buffer ++ s.rangeBytes offset length).length / 7))⟩
          sink := s.sink ++
            (List.range ((s.enc.count + length.toNat) / 7)).flatMap fun g =>
              (pack (((s.enc.buffer ++ s.rangeBytes offset length).drop (7 * g)).take 7)).map (fwd s.params.alphabet)
          status := packStatus 0 0 false (BitVec.ofNat 3 ((s.enc.count + length.toNat) % 7)) s.dec.remainder
          rlen := BitVec.ofNat 32 (8 * ((s.enc.count + length.toNat) / 7))
          finfo := 0 } ∧
        t.enc.count = (s.enc.count + length.toNat) % 7 ∧
        t.sink.length = s.sink.length + 8 * ((s.enc.count + length.toNat) / 7)) ∧
    (¬ RangeOk s offset length →
      exec (.encWrite offset length) s = .next { s with
        status := packStatus 1 (if offset < 0 then 0 else if length < 0 then 1 else 2) false
          (BitVec.ofNat 3 s.enc.count) s.dec.remainder
        rlen := 0
        finfo := 0 })

/-- 43_stream_encoder.md R144: ENC_FLUSH with `c` bytes pending emits the `pad(c)` symbol bytes of their group, by
place, and empties the encoder; with none pending it emits nothing. -/
def Obligations.EncFlushEmitsTail : Prop :=
  ∀ s : State, s.enc.count ≤ 6 →
    exec .encFlush s = .next { s with
      enc := ⟨[]⟩
      sink := s.sink ++ (List.range (pad s.enc.count)).map fun j =>
        fwd s.params.alphabet (barrelExtract (groupValue s.enc.buffer) j)
      status := packStatus 0 0 false 0 s.dec.remainder
      rlen := BitVec.ofNat 32 (pad s.enc.count)
      finfo := 0 }

/-- 43_stream_encoder.md R148: the second of two consecutive ENC_FLUSH commands finds `enc.count = 0`, emits nothing
and returns `RLEN = 0`, `FC = 0`. -/
def Obligations.SecondFlushDoesNothing : Prop :=
  ∀ s t : State, exec .encFlush s = .next t →
    t.enc.count = 0 ∧
    ∃ u, exec .encFlush t = .next u ∧ u.sink = t.sink ∧ u.enc = t.enc ∧ u.rlen = 0 ∧ statusFC u.status = 0

/-- 43_stream_encoder.md R151, which speaks of the next ENC_WRITE or ENC_FLUSH, with 60_exceptions.md R197: a faulted
ENC_WRITE does not poison the block: whatever command comes next behaves as if it had not been issued. That the `RBUF`
bytes and the `dec.hold` which a bulk command or DEC_INIT leaves unspecified are the same on both sides is the model's
choice (log entry 24). -/
def Obligations.FaultedWriteDoesNotPoison : Prop :=
  ∀ (s : State) (offset length : Int), ¬ RangeOk s offset length →
    ∃ t, exec (.encWrite offset length) s = .next t ∧ statusFC t.status = 1 ∧ ∀ i, exec i t = exec i s

/-- 43_stream_encoder.md R146: chunking invariance. Whatever chunks present the same bytes in the same order from the
same state, the same bytes are emitted in the same order and the encoder ends in the same state. -/
def Obligations.ChunkingDoesNotMatter : Prop :=
  ∀ (s : State) (cs cs' : List Chunk), s.enc.count ≤ 6 →
    (∀ c ∈ cs ++ cs', RangeOk s c.offset c.length) →
    cs.flatMap Chunk.bytes = cs'.flatMap Chunk.bytes →
    ∃ t t', writeChunks cs s = .next t ∧ writeChunks cs' s = .next t' ∧ t.sink = t'.sink ∧ t.enc = t'.enc

/-- 42_bulk_transcoder.md R129: the symbol bytes BULK_ENC writes are, byte for byte, what the streaming encoder emits
over any ENC_WRITE commands that present the same bytes in order, then one ENC_FLUSH, from `enc.count = 0`. -/
def Obligations.StreamingMatchesBulk : Prop :=
  ∀ (s b : State) (cs : List Chunk) (offset length : Int), s.enc.count = 0 → ParamsOk b.params →
    b.params.alphabet = s.params.alphabet → (∀ c ∈ cs, RangeOk s c.offset c.length) → RangeOk b offset length →
    cs.flatMap Chunk.bytes = b.rangeBytes offset length →
    ∃ t u v e, writeChunks cs s = .next t ∧ exec .encFlush t = .next u ∧ exec (.bulkEnc offset length) b = .next v ∧
      u.sink = s.sink ++ e ∧ u.enc.count = 0 ∧ v.rlen.toNat = e.length ∧
      ∀ k x, e[k]? = some x → v.readRbuf k = some x

/-- 43_stream_encoder.md R150: a flush in the middle splits the stream: what is emitted is the encoding of the bytes
before it followed by a separate encoding of the bytes after it. -/
def Obligations.MidStreamFlushSplits : Prop :=
  ∀ (s : State) (cs cs' : List Chunk), s.enc.count = 0 → (∀ c ∈ cs ++ cs', RangeOk s c.offset c.length) →
    ∃ t u v w, writeChunks cs s = .next t ∧ exec .encFlush t = .next u ∧ writeChunks cs' u = .next v ∧
      exec .encFlush v = .next w ∧
      w.sink = s.sink ++ encodeBytes s.params.alphabet (cs.flatMap Chunk.bytes) ++
        encodeBytes s.params.alphabet (cs'.flatMap Chunk.bytes)

/-- 43_stream_encoder.md R152, 10_state.md R20: the frame of the encoder commands. Nothing but `enc.*`, `SINK` and the
response registers changes, `SINK` only grows, and ENC_INIT does not touch it. -/
def Obligations.EncoderCommandsFrame : Prop :=
  ∀ (i : Instr) (s t : State), (i = .encInit ∨ i = .encFlush ∨ ∃ o l, i = .encWrite o l) → exec i s = .next t →
    t.params = s.params ∧ t.dec = s.dec ∧ (∀ a, memRead t.ibuf a = memRead s.ibuf a) ∧
      (∀ k, t.readRbuf k = s.readRbuf k) ∧ t.src = s.src ∧ t.dout = s.dout ∧ t.host = s.host ∧
      (∃ e : List Sym, t.sink = s.sink ++ e.map (fwd s.params.alphabet)) ∧ (i = .encInit → t.sink = s.sink)

/-- 10_state.md R20: no encoder command reads a `dec.` register (nor the decoder's streams). -/
def Obligations.EncoderIgnoresDecoder : Prop :=
  ∀ (i : Instr) (s t u : State), (i = .encInit ∨ i = .encFlush ∨ ∃ o l, i = .encWrite o l) → exec i s = .next t →
    exec i { s with dec := u.dec, src := u.src, dout := u.dout } = .next { t with
      dec := u.dec, src := u.src, dout := u.dout
      status := packStatus (statusFC t.status) (statusSUB t.status) (statusEOD t.status)
        (statusEncCount t.status) u.dec.remainder }

/-! ### Streaming decoder -/

/-- 44_stream_decoder.md R162: DEC_INIT. `dec.hold` is left unspecified, so the statement says nothing of it. -/
def Obligations.DecInitAtGroupBoundary : Prop :=
  ∀ s : State, ∃ t, exec .decInit s = .next t ∧ t.dec.remainder = 0 ∧
    t.status = packStatus 0 0 false (BitVec.ofNat 3 s.enc.count) 0 ∧ t.rlen = 0 ∧ t.finfo = 0 ∧
    t.params = s.params ∧ t.enc = s.enc ∧ (∀ a, memRead t.ibuf a = memRead s.ibuf a) ∧
    (∀ k, t.readRbuf k = s.readRbuf k) ∧ t.src = s.src ∧ t.sink = s.sink ∧ t.dout = s.dout ∧ t.host = s.host

/-- 44_stream_decoder.md R163: DEC_READ when every pull gives a good symbol. It consumes exactly `need(count, c)`
symbols and emits exactly `count` bytes; those bytes are the next `8 * count` bits of the packed stream, the leftover
bits first (10_state.md R25). -/
def Obligations.DecReadDeliversCount : Prop :=
  ∀ (s : State) (count : Int) (vs : List Sym) (rest : List SrcAnswer), ParamsOk s.params → 0 ≤ count →
    vs.length = need count.toNat s.dec.remainder.toNat → s.src = symbolSource s.params.alphabet vs ++ rest →
    ∃ out, out.length = count.toNat ∧
      bitString out = (leftoverBits s.dec ++ bitString vs).take (8 * out.length) ∧
      exec (.decRead count) s = .next { s with
        dec := ⟨s.dec.remainder + BitVec.ofNat 3 vs.length, vs.getLastD s.dec.hold⟩
        src := rest
        dout := s.dout ++ out
        status := packStatus 0 0 false (BitVec.ofNat 3 s.enc.count) (s.dec.remainder + BitVec.ofNat 3 vs.length)
        rlen := BitVec.ofNat 32 count.toNat
        finfo := 0 }

/-- 44_stream_decoder.md R164, R165: a short read. The source yields the `g` good symbols `vs`, fewer than needed, then
`none` (or has nothing listed): they are decoded as far as they go, `avail(g, c0)` bytes, fewer than asked; all are
consumed and counted; `EOD` is 1 exactly when no byte came; `FC = 0`. -/
def Obligations.DecReadShortRead : Prop :=
  ∀ (s : State) (count : Int) (vs : List Sym) (rest : List SrcAnswer), ParamsOk s.params → 0 ≤ count →
    vs.length < need count.toNat s.dec.remainder.toNat →
    (s.src = symbolSource s.params.alphabet vs ++ .short :: rest ∨
      s.src = symbolSource s.params.alphabet vs ∧ rest = []) →
    ∃ out, out.length = avail vs.length s.dec.remainder.toNat ∧ out.length < count.toNat ∧
      bitString out = (leftoverBits s.dec ++ bitString vs).take (8 * out.length) ∧
      exec (.decRead count) s = .next { s with
        dec := ⟨s.dec.remainder + BitVec.ofNat 3 vs.length, vs.getLastD s.dec.hold⟩
        src := rest
        dout := s.dout ++ out
        status := packStatus 0 0 (decide (out = [])) (BitVec.ofNat 3 s.enc.count)
          (s.dec.remainder + BitVec.ofNat 3 vs.length)
        rlen := BitVec.ofNat 32 out.length
        finfo := 0 }

/-- 44_stream_decoder.md R170, 60_exceptions.md R195, R197: a bad symbol. After the good symbols `vs` a pull gives a
non-alphabet byte `x`: CorruptData(BAD_SYMBOL, `x`); the bytes the good ones completed stay on `DOUT` and are counted
in `RLEN`; `x` is consumed and changes no decoder register; nothing after it is pulled; `EOD = 0`. -/
def Obligations.DecReadBadSymbol : Prop :=
  ∀ (s : State) (count : Int) (vs : List Sym) (x : Byte) (rest : List SrcAnswer), ParamsOk s.params → 0 ≤ count →
    vs.length < need count.toNat s.dec.remainder.toNat → (∀ v, fwd s.params.alphabet v ≠ x) →
    s.src = symbolSource s.params.alphabet vs ++ .byte x :: rest →
    ∃ out, out.length = avail vs.length s.dec.remainder.toNat ∧
      bitString out = (leftoverBits s.dec ++ bitString vs).take (8 * out.length) ∧
      exec (.decRead count) s = .next { s with
        dec := ⟨s.dec.remainder + BitVec.ofNat 3 vs.length, vs.getLastD s.dec.hold⟩
        src := rest
        dout := s.dout ++ out
        status := packStatus 2 0 false (BitVec.ofNat 3 s.enc.count) (s.dec.remainder + BitVec.ofNat 3 vs.length)
        rlen := BitVec.ofNat 32 out.length
        finfo := x.setWidth 32 }

/-- 60_exceptions.md R201: a DEC_READ that makes a pull the source never answers does not end; as a named fault, the
model's choice (log entry 10). -/
def Obligations.DecReadUnansweredPull : Prop :=
  ∀ (s : State) (count : Int) (vs : List Sym) (rest : List SrcAnswer), ParamsOk s.params → 0 ≤ count →
    vs.length < need count.toNat s.dec.remainder.toNat →
    s.src = symbolSource s.params.alphabet vs ++ .silent :: rest →
    exec (.decRead count) s = .fault .sourceSilent

/-- 60_exceptions.md R191: a negative `count` of DEC_READ or `p` of DEC_AVAIL is InvalidRange(NEG_LENGTH): only the
response registers change. -/
def Obligations.NegativeCountFaults : Prop :=
  ∀ (s : State) (n : Int) (i : Instr), i = .decRead n ∨ i = .decAvail n → n < 0 →
    exec i s = .next { s with
      status := packStatus 1 1 false (BitVec.ofNat 3 s.enc.count) s.dec.remainder
      rlen := 0
      finfo := 0 }

/-- 44_stream_decoder.md R166: `DEC_READ 0` pulls nothing, emits nothing and changes no state, whatever the source. -/
def Obligations.DecReadZeroDoesNothing : Prop :=
  ∀ s : State, exec (.decRead 0) s = .next { s with
    status := packStatus 0 0 false (BitVec.ofNat 3 s.enc.count) s.dec.remainder
    rlen := 0
    finfo := 0 }

/-- 44_stream_decoder.md R167: DEC_AVAIL, a pure query; a negative `p` is InvalidRange(NEG_LENGTH). -/
def Obligations.DecAvailIsPureQuery : Prop :=
  ∀ (s : State) (p : Int),
    (0 ≤ p → exec (.decAvail p) s = .next { s with
      status := packStatus 0 0 false (BitVec.ofNat 3 s.enc.count) s.dec.remainder
      rlen := BitVec.ofNat 32 (avail p.toNat s.dec.remainder.toNat)
      finfo := 0 }) ∧
    (p < 0 → exec (.decAvail p) s = .next { s with
      status := packStatus 1 1 false (BitVec.ofNat 3 s.enc.count) s.dec.remainder
      rlen := 0
      finfo := 0 })

/-- 44_stream_decoder.md R168: DEC_AVAIL is exact. If it returned `a` for `p` and the source has at least `p` good
symbols, the following `DEC_READ a` emits exactly `a` bytes from at most `p` of them; one more byte would need more. -/
def Obligations.DecAvailIsExact : Prop :=
  ∀ (s t : State) (p : Int) (vs : List Sym) (rest : List SrcAnswer), ParamsOk s.params →
    (Instr.decAvail p).WellFormed → 0 ≤ p → p ≤ vs.length → s.src = symbolSource s.params.alphabet vs ++ rest →
    exec (.decAvail p) s = .next t →
    (∃ u, exec (.decRead t.rlen.toNat) t = .next u ∧ u.rlen = t.rlen ∧ statusFC u.status = 0 ∧
      u.dout.length = s.dout.length + t.rlen.toNat ∧
      ∃ n, n ≤ p.toNat ∧ u.src = symbolSource s.params.alphabet (vs.drop n) ++ rest) ∧
    p < need (t.rlen.toNat + 1) s.dec.remainder.toNat

/-- 44_stream_decoder.md R172: chunking invariance of reads. However a total is split into non-negative counts, the
same bytes are emitted, the same symbols consumed, and the decoder ends in the same state, as one read of the total,
provided the source does not run short. -/
def Obligations.SplittingReadsDoesNotMatter : Prop :=
  ∀ (s : State) (counts : List Int) (vs : List Sym) (rest : List SrcAnswer), ParamsOk s.params →
    (∀ n ∈ counts, 0 ≤ n) → need counts.sum.toNat s.dec.remainder.toNat ≤ vs.length →
    s.src = symbolSource s.params.alphabet vs ++ rest →
    ∃ t u, execAll (counts.map .decRead) s = .next t ∧ exec (.decRead counts.sum) s = .next u ∧
      t.dout = u.dout ∧ t.src = u.src ∧ t.dec = u.dec ∧ t.dout.length = s.dout.length + counts.sum.toNat

/-- 44_stream_decoder.md R178, R173: the streaming round trip. Encode any raw bytes by any ENC_WRITE commands and one
ENC_FLUSH; let the symbol bytes be the whole contents of the source of a decoder at a group boundary (of this or of
another instance). Any reads with non-negative counts emit, in total, the prefix of the raw bytes as long as the counts
ask; none faults; once the counts sum to all of them the phase is `pad(n mod 7)` and every later read is end of data. -/
def Obligations.StreamingRoundTrip : Prop :=
  ∀ (s d : State) (cs : List Chunk) (counts : List Int), ParamsOk d.params →
    d.params.alphabet = s.params.alphabet → s.enc.count = 0 → d.dec.remainder = 0 →
    (∀ c ∈ cs, RangeOk s c.offset c.length) → (∀ n ∈ counts, 0 ≤ n) →
    ∃ t u e, writeChunks cs s = .next t ∧ exec .encFlush t = .next u ∧ u.sink = s.sink ++ e ∧
      (d.src = e.map .byte →
        ∃ v, execAll (counts.map .decRead) d = .next v ∧
          v.dout = d.dout ++ (cs.flatMap Chunk.bytes).take counts.sum.toNat ∧
          (counts ≠ [] → statusFC v.status = 0) ∧
          ((cs.flatMap Chunk.bytes).length ≤ counts.sum.toNat →
            v.dec.remainder.toNat = pad ((cs.flatMap Chunk.bytes).length % 7) ∧
            ∀ k : Int, 0 < k → ∃ w, exec (.decRead k) v = .next w ∧ w.dout = v.dout ∧ w.rlen = 0 ∧
              statusEOD w.status = true ∧ statusFC w.status = 0))

/-- 70_reset_and_hazards.md R228: a packed stream cut short at any point decodes, without a fault, to a prefix of the
original bytes followed by a zero read with `EOD = 1`. -/
def Obligations.TruncatedStreamIsAPrefix : Prop :=
  ∀ (d : State) (raw : List Byte) (g : Nat) (count : Int), ParamsOk d.params → d.dec.remainder = 0 →
    d.src = ((encodeBytes d.params.alphabet raw).take g).map .byte → (raw.length : Int) ≤ count →
    ∃ t, exec (.decRead count) d = .next t ∧ statusFC t.status = 0 ∧
      t.dout = d.dout ++ raw.take (avail (min g (encLen raw.length)) 0) ∧
      ∀ k : Int, 0 < k → ∃ u, exec (.decRead k) t = .next u ∧ u.dout = t.dout ∧ u.rlen = 0 ∧
        statusEOD u.status = true ∧ statusFC u.status = 0

/-- 44_stream_decoder.md R179, 10_state.md R20: the frame of the decoder commands. Nothing but `dec.*`, `SRC`, `DOUT`
and the response registers changes; `DOUT` only grows, by at most `count` bytes; at most `need(count, c)` answers leave
the source; DEC_AVAIL changes the response registers alone and DEC_INIT no stream. -/
def Obligations.DecoderCommandsFrame : Prop :=
  ∀ (i : Instr) (s t : State), (i = .decInit ∨ (∃ n, i = .decRead n) ∨ ∃ p, i = .decAvail p) → exec i s = .next t →
    t.params = s.params ∧ t.enc = s.enc ∧ (∀ a, memRead t.ibuf a = memRead s.ibuf a) ∧
      (∀ k, t.readRbuf k = s.readRbuf k) ∧ t.sink = s.sink ∧ t.host = s.host ∧
      (i = .decInit → t.src = s.src ∧ t.dout = s.dout) ∧
      (∀ n, i = .decRead n →
        (∃ out, t.dout = s.dout ++ out ∧ out.length ≤ n.toNat) ∧
        ∃ k, k ≤ need n.toNat s.dec.remainder.toNat ∧ t.src = s.src.drop k) ∧
      (∀ p, i = .decAvail p → t.dec = s.dec ∧ t.src = s.src ∧ t.dout = s.dout)

/-- 10_state.md R20: no decoder command reads an `enc.` register (nor `IBUF`, `RBUF` or the encoder's stream). That the
`dec.hold` a DEC_INIT leaves unspecified is the same on both sides is the model's choice (log entry 24). -/
def Obligations.DecoderIgnoresEncoder : Prop :=
  ∀ (i : Instr) (s t u : State), (i = .decInit ∨ (∃ n, i = .decRead n) ∨ ∃ p, i = .decAvail p) →
    exec i s = .next t →
    exec i { s with enc := u.enc, ibuf := u.ibuf, rbuf := u.rbuf, sink := u.sink } = .next { t with
      enc := u.enc, ibuf := u.ibuf, rbuf := u.rbuf, sink := u.sink
      status := packStatus (statusFC t.status) (statusSUB t.status) (statusEOD t.status)
        (BitVec.ofNat 3 u.enc.count) (statusDecRem t.status) }

/-! ### Several instances, and the strict reading -/

/-- 60_exceptions.md R203: instances cannot affect one another. In whatever order instances take steps, and whether or
not some of them stop (a DEC_READ that never ends), the instance at each position ends exactly where its own steps alone
bring it; each of those is the step of that instance's state; and all go on sharing the same ROMs. -/
def Obligations.InstancesAreIndependent : Prop :=
  ∀ (schedule : List Nat) (sys : System),
    (∀ k, (System.run schedule sys)[k]? = sys[k]?.map (Slot.step^[schedule.count k])) ∧
      (∀ s t, Slot.step (.running s) = .running t ↔ step s = .next t) ∧
      (System.sameRom sys → System.sameRom (System.run schedule sys))

/-- 60_exceptions.md R205 (log entry 9): in the strict reading a run ends exactly at a command that ends with
CorruptData; every other step is the block's own. -/
def Obligations.StrictRunEndsAtCorruptData : Prop :=
  ∀ (s : State) (w : CmdWord) (rest : List HostEvent) (i : Instr), s.host = .command w :: rest → decode w = .ok i →
    (strictStep s = .fault .corruptDataEndsRun ↔
      ∃ t, step s = .next t ∧ statusFC t.status = 2 ∧ ((∃ o l, i = .bulkDec o l) ∨ ∃ c, i = .decRead c)) ∧
    (∀ t, strictStep s = .next t ↔ step s = .next t ∧ statusFC t.status ≠ 2)
end

