-- ==== Sys2Proof/Laws/State.lean ====
section
/-! SUPPORT. One lemma for each field of State after each register or stream update, true by rfl: simp takes every
record update apart with these, and no proof unfolds one. `respond`, `raise`, `deliver`, `raiseBulk` and `afterRead`
are rewritten to the updates they are made of. -/

namespace Sys2Proof.Laws

open Sys2Proof.Machine

variable (s : State)

/-! ### setRbuf -/

@[simp] theorem setRbuf_params (bytes : List Byte) : (s.setRbuf bytes).params = s.params := rfl
@[simp] theorem setRbuf_enc (bytes : List Byte) : (s.setRbuf bytes).enc = s.enc := rfl
@[simp] theorem setRbuf_dec (bytes : List Byte) : (s.setRbuf bytes).dec = s.dec := rfl
@[simp] theorem setRbuf_status (bytes : List Byte) : (s.setRbuf bytes).status = s.status := rfl
@[simp] theorem setRbuf_rlen (bytes : List Byte) : (s.setRbuf bytes).rlen = s.rlen := rfl
@[simp] theorem setRbuf_finfo (bytes : List Byte) : (s.setRbuf bytes).finfo = s.finfo := rfl
@[simp] theorem setRbuf_ibuf (bytes : List Byte) : (s.setRbuf bytes).ibuf = s.ibuf := rfl
@[simp] theorem setRbuf_rbuf (bytes : List Byte) : (s.setRbuf bytes).rbuf = ⟨bytes, s.draws⟩ := rfl
@[simp] theorem setRbuf_src (bytes : List Byte) : (s.setRbuf bytes).src = s.src := rfl
@[simp] theorem setRbuf_sink (bytes : List Byte) : (s.setRbuf bytes).sink = s.sink := rfl
@[simp] theorem setRbuf_dout (bytes : List Byte) : (s.setRbuf bytes).dout = s.dout := rfl
@[simp] theorem setRbuf_host (bytes : List Byte) : (s.setRbuf bytes).host = s.host := rfl
@[simp] theorem setRbuf_draws (bytes : List Byte) : (s.setRbuf bytes).draws = s.draws + 1 := rfl

/-! ### setEnc -/

@[simp] theorem setEnc_params (buffer : List Byte) : (s.setEnc buffer).params = s.params := rfl
@[simp] theorem setEnc_enc (buffer : List Byte) : (s.setEnc buffer).enc = ⟨buffer⟩ := rfl
@[simp] theorem setEnc_dec (buffer : List Byte) : (s.setEnc buffer).dec = s.dec := rfl
@[simp] theorem setEnc_status (buffer : List Byte) : (s.setEnc buffer).status = s.status := rfl
@[simp] theorem setEnc_rlen (buffer : List Byte) : (s.setEnc buffer).rlen = s.rlen := rfl
@[simp] theorem setEnc_finfo (buffer : List Byte) : (s.setEnc buffer).finfo = s.finfo := rfl
@[simp] theorem setEnc_ibuf (buffer : List Byte) : (s.setEnc buffer).ibuf = s.ibuf := rfl
@[simp] theorem setEnc_rbuf (buffer : List Byte) : (s.setEnc buffer).rbuf = s.rbuf := rfl
@[simp] theorem setEnc_src (buffer : List Byte) : (s.setEnc buffer).src = s.src := rfl
@[simp] theorem setEnc_sink (buffer : List Byte) : (s.setEnc buffer).sink = s.sink := rfl
@[simp] theorem setEnc_dout (buffer : List Byte) : (s.setEnc buffer).dout = s.dout := rfl
@[simp] theorem setEnc_host (buffer : List Byte) : (s.setEnc buffer).host = s.host := rfl
@[simp] theorem setEnc_draws (buffer : List Byte) : (s.setEnc buffer).draws = s.draws := rfl

/-! ### setDec -/

@[simp] theorem setDec_params (d : DecRegs) : (s.setDec d).params = s.params := rfl
@[simp] theorem setDec_enc (d : DecRegs) : (s.setDec d).enc = s.enc := rfl
@[simp] theorem setDec_dec (d : DecRegs) : (s.setDec d).dec = d := rfl
@[simp] theorem setDec_status (d : DecRegs) : (s.setDec d).status = s.status := rfl
@[simp] theorem setDec_rlen (d : DecRegs) : (s.setDec d).rlen = s.rlen := rfl
@[simp] theorem setDec_finfo (d : DecRegs) : (s.setDec d).finfo = s.finfo := rfl
@[simp] theorem setDec_ibuf (d : DecRegs) : (s.setDec d).ibuf = s.ibuf := rfl
@[simp] theorem setDec_rbuf (d : DecRegs) : (s.setDec d).rbuf = s.rbuf := rfl
@[simp] theorem setDec_src (d : DecRegs) : (s.setDec d).src = s.src := rfl
@[simp] theorem setDec_sink (d : DecRegs) : (s.setDec d).sink = s.sink := rfl
@[simp] theorem setDec_dout (d : DecRegs) : (s.setDec d).dout = s.dout := rfl
@[simp] theorem setDec_host (d : DecRegs) : (s.setDec d).host = s.host := rfl
@[simp] theorem setDec_draws (d : DecRegs) : (s.setDec d).draws = s.draws := rfl

/-! ### clearDec -/

@[simp] theorem clearDec_params : (s.clearDec).params = s.params := rfl
@[simp] theorem clearDec_enc : (s.clearDec).enc = s.enc := rfl
@[simp] theorem clearDec_dec : (s.clearDec).dec = ⟨0, Config.freeHold s.draws⟩ := rfl
@[simp] theorem clearDec_status : (s.clearDec).status = s.status := rfl
@[simp] theorem clearDec_rlen : (s.clearDec).rlen = s.rlen := rfl
@[simp] theorem clearDec_finfo : (s.clearDec).finfo = s.finfo := rfl
@[simp] theorem clearDec_ibuf : (s.clearDec).ibuf = s.ibuf := rfl
@[simp] theorem clearDec_rbuf : (s.clearDec).rbuf = s.rbuf := rfl
@[simp] theorem clearDec_src : (s.clearDec).src = s.src := rfl
@[simp] theorem clearDec_sink : (s.clearDec).sink = s.sink := rfl
@[simp] theorem clearDec_dout : (s.clearDec).dout = s.dout := rfl
@[simp] theorem clearDec_host : (s.clearDec).host = s.host := rfl
@[simp] theorem clearDec_draws : (s.clearDec).draws = s.draws + 1 := rfl

/-! ### emitSink -/

@[simp] theorem emitSink_params (bytes : List Byte) : (s.emitSink bytes).params = s.params := rfl
@[simp] theorem emitSink_enc (bytes : List Byte) : (s.emitSink bytes).enc = s.enc := rfl
@[simp] theorem emitSink_dec (bytes : List Byte) : (s.emitSink bytes).dec = s.dec := rfl
@[simp] theorem emitSink_status (bytes : List Byte) : (s.emitSink bytes).status = s.status := rfl
@[simp] theorem emitSink_rlen (bytes : List Byte) : (s.emitSink bytes).rlen = s.rlen := rfl
@[simp] theorem emitSink_finfo (bytes : List Byte) : (s.emitSink bytes).finfo = s.finfo := rfl
@[simp] theorem emitSink_ibuf (bytes : List Byte) : (s.emitSink bytes).ibuf = s.ibuf := rfl
@[simp] theorem emitSink_rbuf (bytes : List Byte) : (s.emitSink bytes).rbuf = s.rbuf := rfl
@[simp] theorem emitSink_src (bytes : List Byte) : (s.emitSink bytes).src = s.src := rfl
@[simp] theorem emitSink_sink (bytes : List Byte) : (s.emitSink bytes).sink = s.sink ++ bytes := rfl
@[simp] theorem emitSink_dout (bytes : List Byte) : (s.emitSink bytes).dout = s.dout := rfl
@[simp] theorem emitSink_host (bytes : List Byte) : (s.emitSink bytes).host = s.host := rfl
@[simp] theorem emitSink_draws (bytes : List Byte) : (s.emitSink bytes).draws = s.draws := rfl

/-! ### emitDout -/

@[simp] theorem emitDout_params (bytes : List Byte) : (s.emitDout bytes).params = s.params := rfl
@[simp] theorem emitDout_enc (bytes : List Byte) : (s.emitDout bytes).enc = s.enc := rfl
@[simp] theorem emitDout_dec (bytes : List Byte) : (s.emitDout bytes).dec = s.dec := rfl
@[simp] theorem emitDout_status (bytes : List Byte) : (s.emitDout bytes).status = s.status := rfl
@[simp] theorem emitDout_rlen (bytes : List Byte) : (s.emitDout bytes).rlen = s.rlen := rfl
@[simp] theorem emitDout_finfo (bytes : List Byte) : (s.emitDout bytes).finfo = s.finfo := rfl
@[simp] theorem emitDout_ibuf (bytes : List Byte) : (s.emitDout bytes).ibuf = s.ibuf := rfl
@[simp] theorem emitDout_rbuf (bytes : List Byte) : (s.emitDout bytes).rbuf = s.rbuf := rfl
@[simp] theorem emitDout_src (bytes : List Byte) : (s.emitDout bytes).src = s.src := rfl
@[simp] theorem emitDout_sink (bytes : List Byte) : (s.emitDout bytes).sink = s.sink := rfl
@[simp] theorem emitDout_dout (bytes : List Byte) : (s.emitDout bytes).dout = s.dout ++ bytes := rfl
@[simp] theorem emitDout_host (bytes : List Byte) : (s.emitDout bytes).host = s.host := rfl
@[simp] theorem emitDout_draws (bytes : List Byte) : (s.emitDout bytes).draws = s.draws := rfl

/-! ### setSrc -/

@[simp] theorem setSrc_params (answers : List SrcAnswer) : (s.setSrc answers).params = s.params := rfl
@[simp] theorem setSrc_enc (answers : List SrcAnswer) : (s.setSrc answers).enc = s.enc := rfl
@[simp] theorem setSrc_dec (answers : List SrcAnswer) : (s.setSrc answers).dec = s.dec := rfl
@[simp] theorem setSrc_status (answers : List SrcAnswer) : (s.setSrc answers).status = s.status := rfl
@[simp] theorem setSrc_rlen (answers : List SrcAnswer) : (s.setSrc answers).rlen = s.rlen := rfl
@[simp] theorem setSrc_finfo (answers : List SrcAnswer) : (s.setSrc answers).finfo = s.finfo := rfl
@[simp] theorem setSrc_ibuf (answers : List SrcAnswer) : (s.setSrc answers).ibuf = s.ibuf := rfl
@[simp] theorem setSrc_rbuf (answers : List SrcAnswer) : (s.setSrc answers).rbuf = s.rbuf := rfl
@[simp] theorem setSrc_src (answers : List SrcAnswer) : (s.setSrc answers).src = answers := rfl
@[simp] theorem setSrc_sink (answers : List SrcAnswer) : (s.setSrc answers).sink = s.sink := rfl
@[simp] theorem setSrc_dout (answers : List SrcAnswer) : (s.setSrc answers).dout = s.dout := rfl
@[simp] theorem setSrc_host (answers : List SrcAnswer) : (s.setSrc answers).host = s.host := rfl
@[simp] theorem setSrc_draws (answers : List SrcAnswer) : (s.setSrc answers).draws = s.draws := rfl

/-! ### setHost -/

@[simp] theorem setHost_params (events : List HostEvent) : (s.setHost events).params = s.params := rfl
@[simp] theorem setHost_enc (events : List HostEvent) : (s.setHost events).enc = s.enc := rfl
@[simp] theorem setHost_dec (events : List HostEvent) : (s.setHost events).dec = s.dec := rfl
@[simp] theorem setHost_status (events : List HostEvent) : (s.setHost events).status = s.status := rfl
@[simp] theorem setHost_rlen (events : List HostEvent) : (s.setHost events).rlen = s.rlen := rfl
@[simp] theorem setHost_finfo (events : List HostEvent) : (s.setHost events).finfo = s.finfo := rfl
@[simp] theorem setHost_ibuf (events : List HostEvent) : (s.setHost events).ibuf = s.ibuf := rfl
@[simp] theorem setHost_rbuf (events : List HostEvent) : (s.setHost events).rbuf = s.rbuf := rfl
@[simp] theorem setHost_src (events : List HostEvent) : (s.setHost events).src = s.src := rfl
@[simp] theorem setHost_sink (events : List HostEvent) : (s.setHost events).sink = s.sink := rfl
@[simp] theorem setHost_dout (events : List HostEvent) : (s.setHost events).dout = s.dout := rfl
@[simp] theorem setHost_host (events : List HostEvent) : (s.setHost events).host = events := rfl
@[simp] theorem setHost_draws (events : List HostEvent) : (s.setHost events).draws = s.draws := rfl

/-! ### respondWith -/

@[simp] theorem respondWith_params (fc sub : BitVec 2) (eod : Bool) (rlen finfo : Word) : (s.respondWith fc sub eod rlen finfo).params = s.params := rfl
@[simp] theorem respondWith_enc (fc sub : BitVec 2) (eod : Bool) (rlen finfo : Word) : (s.respondWith fc sub eod rlen finfo).enc = s.enc := rfl
@[simp] theorem respondWith_dec (fc sub : BitVec 2) (eod : Bool) (rlen finfo : Word) : (s.respondWith fc sub eod rlen finfo).dec = s.dec := rfl
@[simp] theorem respondWith_status (fc sub : BitVec 2) (eod : Bool) (rlen finfo : Word) : (s.respondWith fc sub eod rlen finfo).status = packStatus fc sub eod (BitVec.ofNat 3 s.enc.count) s.dec.remainder := rfl
@[simp] theorem respondWith_rlen (fc sub : BitVec 2) (eod : Bool) (rlen finfo : Word) : (s.respondWith fc sub eod rlen finfo).rlen = rlen := rfl
@[simp] theorem respondWith_finfo (fc sub : BitVec 2) (eod : Bool) (rlen finfo : Word) : (s.respondWith fc sub eod rlen finfo).finfo = finfo := rfl
@[simp] theorem respondWith_ibuf (fc sub : BitVec 2) (eod : Bool) (rlen finfo : Word) : (s.respondWith fc sub eod rlen finfo).ibuf = s.ibuf := rfl
@[simp] theorem respondWith_rbuf (fc sub : BitVec 2) (eod : Bool) (rlen finfo : Word) : (s.respondWith fc sub eod rlen finfo).rbuf = s.rbuf := rfl
@[simp] theorem respondWith_src (fc sub : BitVec 2) (eod : Bool) (rlen finfo : Word) : (s.respondWith fc sub eod rlen finfo).src = s.src := rfl
@[simp] theorem respondWith_sink (fc sub : BitVec 2) (eod : Bool) (rlen finfo : Word) : (s.respondWith fc sub eod rlen finfo).sink = s.sink := rfl
@[simp] theorem respondWith_dout (fc sub : BitVec 2) (eod : Bool) (rlen finfo : Word) : (s.respondWith fc sub eod rlen finfo).dout = s.dout := rfl
@[simp] theorem respondWith_host (fc sub : BitVec 2) (eod : Bool) (rlen finfo : Word) : (s.respondWith fc sub eod rlen finfo).host = s.host := rfl
@[simp] theorem respondWith_draws (fc sub : BitVec 2) (eod : Bool) (rlen finfo : Word) : (s.respondWith fc sub eod rlen finfo).draws = s.draws := rfl

/-! ### The compound updates -/

@[simp] theorem respond_eq (eod : Bool) (rlen : Nat) :
    s.respond eod rlen = s.respondWith 0 0 eod (BitVec.ofNat 32 rlen) 0 := rfl

@[simp] theorem raise_eq (f : CmdFault) (rlen : Nat) :
    s.raise f rlen = s.respondWith (faultFC f) (faultSUB f) false (BitVec.ofNat 32 rlen) (faultInfo f) := rfl

@[simp] theorem deliver_eq (bytes : List Byte) :
    s.deliver bytes = (s.setRbuf bytes).respondWith 0 0 false (BitVec.ofNat 32 bytes.length) 0 := rfl

@[simp] theorem raiseBulk_eq (f : CmdFault) :
    s.raiseBulk f = (s.setRbuf []).respondWith (faultFC f) (faultSUB f) false 0 (faultInfo f) := rfl

@[simp] theorem afterRead_eq (r : ReadRun) :
    s.afterRead r = ((s.setDec r.dec).setSrc r.src).emitDout r.out := rfl

@[simp] theorem encCount_mk (buffer : List Byte) : (EncRegs.mk buffer).count = buffer.length := rfl

/-- A response written over a response: the second one stands (10_state.md R31, none is sticky). -/
@[simp] theorem respondWith_respondWith (fc sub fc' sub' : BitVec 2) (eod eod' : Bool) (rlen finfo rlen' finfo' : Word) :
    (s.respondWith fc sub eod rlen finfo).respondWith fc' sub' eod' rlen' finfo' =
      s.respondWith fc' sub' eod' rlen' finfo' := rfl

end Sys2Proof.Laws
end

