-- ==== Sys2Proof/Laws/Ops.lean ====
section
/-! SUPPORT. What the shared operations do: the range check, the fields of `STATUS`, the alphabet. -/

namespace Sys2Proof.Laws

open Sys2Proof.Machine

/-! ### Operand checks -/

/-- `check_range` passes exactly when the three constraints of 20_memory.md R64 hold. -/
theorem checkRange_eq_none {size : Nat} {offset length : Int} :
    checkRange size offset length = none ↔ 0 ≤ offset ∧ 0 ≤ length ∧ offset + length ≤ size := by
  unfold checkRange
  split <;> [skip; split <;> [skip; split]] <;> simp <;> omega

/-- Otherwise it answers the first violated constraint, as a sub-cause code (60_exceptions.md R195). -/
theorem checkRange_eq_some {size : Nat} {offset length : Int}
    (h : ¬(0 ≤ offset ∧ 0 ≤ length ∧ offset + length ≤ size)) :
    ∃ cause, checkRange size offset length = some cause ∧
      faultSUB (.invalidRange cause) = if offset < 0 then 0 else if length < 0 then 1 else 2 := by
  unfold checkRange
  by_cases h1 : offset < 0
  · exact ⟨.negOffset, by simp [h1], by simp [h1, faultSUB]⟩
  · by_cases h2 : length < 0
    · exact ⟨.negLength, by simp [h1, h2], by simp [h1, h2, faultSUB]⟩
    · exact ⟨.outOfBounds, by simp [h1, h2]; omega, by simp [h1, h2, faultSUB]⟩

theorem checkCount_of_nonneg {count : Int} (h : 0 ≤ count) : checkCount count = none := by
  simp [checkCount]; omega

theorem checkCount_of_neg {count : Int} (h : count < 0) : checkCount count = some .negLength := by
  simp [checkCount, h]

/-! ### STATUS -/

section

variable (fc sub : BitVec 2) (eod : Bool) (e d : BitVec 3)

/-- Each bit of `STATUS` from its field (10_state.md R27). -/
theorem packStatus_getLsbD (i : Nat) :
    (packStatus fc sub eod e d).getLsbD i =
      (if i < 2 then fc.getLsbD i
      else if i < 4 then sub.getLsbD (i - 2)
      else if i = 4 then eod
      else if 8 ≤ i ∧ i < 11 then e.getLsbD (i - 8)
      else if 12 ≤ i ∧ i < 15 then d.getLsbD (i - 12)
      else false) := by
  simp only [packStatus, BitVec.getLsbD_append]
  rcases Nat.lt_or_ge i 32 with h | h
  · interval_cases i <;> simp
  · rw [BitVec.getLsbD_of_ge]
    all_goals (repeat' split) <;> first | omega | simp_all

@[simp] theorem statusFC_packStatus : statusFC (packStatus fc sub eod e d) = fc := by
  ext i hi
  simp [statusFC, BitVec.getElem_extractLsb', packStatus_getLsbD, hi, BitVec.getLsbD_eq_getElem]

@[simp] theorem statusSUB_packStatus : statusSUB (packStatus fc sub eod e d) = sub := by
  ext i hi
  simp [statusSUB, BitVec.getElem_extractLsb', packStatus_getLsbD, hi, BitVec.getLsbD_eq_getElem,
    show ¬ 2 + i < 2 by omega, show 2 + i < 4 by omega]

@[simp] theorem statusEOD_packStatus : statusEOD (packStatus fc sub eod e d) = eod := by
  rw [statusEOD, packStatus_getLsbD]; simp

@[simp] theorem statusEncCount_packStatus : statusEncCount (packStatus fc sub eod e d) = e := by
  ext i hi
  simp only [statusEncCount, BitVec.getElem_extractLsb', packStatus_getLsbD]
  simp [hi, BitVec.getLsbD_eq_getElem, show ¬ 8 + i < 2 by omega, show ¬ 8 + i < 4 by omega, show ¬ 8 + i = 4 by omega,
    show 8 + i < 11 by omega]

@[simp] theorem statusDecRem_packStatus : statusDecRem (packStatus fc sub eod e d) = d := by
  ext i hi
  simp only [statusDecRem, BitVec.getElem_extractLsb', packStatus_getLsbD]
  simp [hi, BitVec.getLsbD_eq_getElem, show ¬ 12 + i < 2 by omega, show ¬ 12 + i < 4 by omega, show ¬ 12 + i = 4 by omega,
    show ¬ 12 + i < 11 by omega, show 12 + i < 15 by omega]

end

/-! ### Alphabet -/

theorem fwd_eq_getElem (a : Alphabet) (v : Sym) : fwd a v = a.toList[v.toNat]'(by simp; exact v.isLt) := by
  simp [fwd]

/-- `inv` finds a byte exactly where the forward table has it (40_alphabet_rom.md R92). -/
theorem fwd_of_inv {a : Alphabet} {b : Byte} {v : Sym} (h : inv a b = some v) : fwd a v = b := by
  simp only [inv, Option.map_eq_some_iff] at h
  obtain ⟨n, hn, rfl⟩ := h
  obtain ⟨hlt, heq, -⟩ := List.idxOf?_eq_some_iff.mp hn
  have : n < 128 := by simpa using hlt
  rw [fwd_eq_getElem]
  simp only [BitVec.toNat_ofNat]
  have hm : n % 2 ^ 7 = n := by omega
  simp only [hm]
  exact heq

/-- A byte of the table is found, at the place it has in an admissible table (40_alphabet_rom.md R90, R94). -/
theorem inv_fwd {a : Alphabet} (ha : a.toList.Nodup) (v : Sym) : inv a (fwd a v) = some v := by
  have hv : v.toNat < a.toList.length := by simp; exact v.isLt
  have : a.toList.idxOf? (fwd a v) = some v.toNat := by
    rw [List.idxOf?_eq_some_iff, fwd_eq_getElem]
    refine ⟨hv, rfl, fun j hj he => ?_⟩
    have := (List.Nodup.getElem_inj_iff ha).mp he
    omega
  simp [inv, this]

/-- A byte the table does not hold is invalid, and only such a byte (40_alphabet_rom.md R93). -/
theorem inv_eq_none_iff {a : Alphabet} {b : Byte} : inv a b = none ↔ ∀ v, fwd a v ≠ b := by
  constructor
  · intro h v hv
    have hmem : b ∈ a.toList := by
      rw [← hv, fwd_eq_getElem]
      exact List.getElem_mem _
    simp [inv, List.idxOf?_eq_none_iff] at h
    simp at hmem
    exact h hmem
  · intro h
    cases hb : inv a b with
    | none => rfl
    | some v => exact absurd (fwd_of_inv hb) (h v)

/-- `invAll` answers exactly when every byte is a symbol byte, and then it takes the table lookup back. -/
theorem invAll_map_fwd {a : Alphabet} (ha : a.toList.Nodup) (vs : List Sym) : invAll a (vs.map (fwd a)) = .ok vs := by
  induction vs with
  | nil => rfl
  | cons v vs ih => simp [invAll, inv_fwd ha, ih]

/-- The first bad byte by index is the one reported (42_bulk_transcoder.md R121). -/
theorem invAll_bad {a : Alphabet} {good rest : List Byte} {x : Byte} (hg : ∀ b ∈ good, ∃ v, fwd a v = b)
    (hx : ∀ v, fwd a v ≠ x) : invAll a (good ++ x :: rest) = .error x := by
  induction good with
  | nil => simp [invAll, inv_eq_none_iff.mpr hx]
  | cons b good ih =>
    obtain ⟨v, hv⟩ := hg b (by simp)
    have ih' := ih fun c hc => hg c (by simp [hc])
    cases hb : inv a b with
    | none => exact absurd hv (inv_eq_none_iff.mp hb v)
    | some w => simp [invAll, hb, ih']

/-- What `invAll` answers has one value for each byte, and each value's byte is the byte. -/
theorem map_fwd_of_invAll {a : Alphabet} {bytes : List Byte} {vs : List Sym} (h : invAll a bytes = .ok vs) :
    vs.map (fwd a) = bytes := by
  induction bytes generalizing vs with
  | nil => simp [invAll] at h; simp [← h]
  | cons b bytes ih =>
    simp only [invAll] at h
    split at h
    · cases h
    · next v hv =>
      split at h
      · cases h
      · next ws hws => cases h; simp [ih hws, fwd_of_inv hv]

end Sys2Proof.Laws
end

