-- ==== Sys2Proof/Laws/Pack.lean ====
section
/-! SUPPORT. Lengths and group structure of the packing functions, the encoder's byte loop as a fold, and what one
good symbol does in DEC_READ's loop. -/

namespace Sys2Proof.Laws

open Sys2Proof.Machine

/-! ### Lengths -/

@[simp] theorem pack_length (l : List Byte) : (pack l).length = groupSymbols l.length := by simp [pack]

@[simp] theorem unpack_length (vs : List Sym) : (unpack vs).length = groupBytes vs.length := by simp [unpack]

theorem encLen_mono {m n : Nat} (h : m ≤ n) : encLen m ≤ encLen n := by
  simp only [encLen, pad]
  split <;> split <;> omega

theorem le_encLen (n : Nat) : n ≤ encLen n := by
  simp only [encLen, pad]
  split <;> omega

theorem decLen_le (m : Nat) : decLen m ≤ m := by
  simp only [decLen, unpad]
  split <;> omega

/-- The number of symbols of any range fits 32 bits unsigned (41_pack_primitives.md R113). -/
theorem encLen_lt {n : Nat} (h : n ≤ 2 ^ 31 - 1) : encLen n < 2 ^ 32 := by
  simp only [encLen, pad]
  split <;> omega

theorem sum_const_map_range (n k : Nat) (f : Nat → Nat) (h : ∀ g, g < n → f g = k) :
    ((List.range n).map f).sum = n * k := by
  induction n with
  | zero => simp
  | succ n ih =>
    rw [List.range_succ, List.map_append, List.sum_append, ih fun g hg => h g (by omega)]
    simp [h n (by omega), Nat.succ_mul]

theorem packAll_length (raw : List Byte) : (packAll raw).length = encLen raw.length := by
  simp only [packAll, List.length_append, List.length_flatMap]
  rw [sum_const_map_range _ 8 _ fun g hg => by
    have : min 7 (raw.length - 7 * g) = 7 := by omega
    simp [this, groupSymbols]]
  split
  · have h7 : ¬ raw.length % 7 = 7 := by omega
    have hr : raw.length - 7 * (raw.length / 7) = raw.length % 7 := by omega
    simp [groupSymbols, h7, encLen, hr]
    omega
  · next h =>
    have : raw.length % 7 = 0 := by omega
    simp [encLen, pad, this]
    omega

theorem unpackAll_length (vs : List Sym) : (unpackAll vs).length = decLen vs.length := by
  simp only [unpackAll, List.length_append, List.length_flatMap]
  rw [sum_const_map_range _ 7 _ fun g hg => by
    have : min 8 (vs.length - 8 * g) = 8 := by omega
    simp [this, groupBytes]]
  split
  · have h8 : ¬ vs.length % 8 = 8 := by omega
    have hr : vs.length - 8 * (vs.length / 8) = vs.length % 8 := by omega
    simp [groupBytes, h8, decLen, hr]
    omega
  · next h =>
    have : vs.length % 8 ≤ 1 := by omega
    simp [decLen, unpad, this]
    omega

@[simp] theorem encodeBytes_length (a : Alphabet) (raw : List Byte) :
    (encodeBytes a raw).length = encLen raw.length := by
  simp [encodeBytes, packAll_length]

/-! ### A full group in front -/

/-- The symbols of a full group come first, then those of the rest. -/
theorem packAll_group {g : List Byte} (rest : List Byte) (hg : g.length = 7) :
    packAll (g ++ rest) = pack g ++ packAll rest := by
  have hq : (7 + rest.length) / 7 = rest.length / 7 + 1 := by omega
  have hr : (7 + rest.length) % 7 = rest.length % 7 := by omega
  simp only [packAll, List.length_append, hg, hq, hr, List.range_succ_eq_map, List.flatMap_cons, List.flatMap_map]
  have h0 : ((g ++ rest).drop (7 * 0)).take 7 = g := by simp [← hg]
  have hs : ∀ k, (g ++ rest).drop (7 * (k + 1)) = rest.drop (7 * k) := fun k => by
    rw [List.drop_append, List.drop_eq_nil_of_le (by omega), List.nil_append]
    congr 1; omega
  simp only [h0, hs, List.append_assoc, Nat.succ_eq_add_one]

/-- A sequence shorter than a group is its own tail. -/
theorem packAll_short {l : List Byte} (hl : l.length < 7) : packAll l = if l.length > 0 then pack l else [] := by
  have hq : l.length / 7 = 0 := by omega
  have hr : l.length % 7 = l.length := by omega
  simp [packAll, hq, hr]

/-! ### The encoder's byte loop -/

/-- What was emitted before does not change what the next bytes do. -/
theorem foldl_encPush (a : Alphabet) (raw buffer out : List Byte) :
    raw.foldl (encPush a) ⟨buffer, out⟩ =
      ⟨(encPushAll a buffer raw).buffer, out ++ (encPushAll a buffer raw).out⟩ := by
  induction raw generalizing buffer out with
  | nil => simp [encPushAll]
  | cons b raw ih =>
    simp only [encPushAll, List.foldl_cons, encPush]
    split <;> simp [ih, List.append_assoc]

/-- Bytes presented in two parts: the second starts from what the first left pending (43_stream_encoder.md R146). -/
theorem encPushAll_append (a : Alphabet) (buffer raw raw' : List Byte) :
    encPushAll a buffer (raw ++ raw') =
      ⟨(encPushAll a (encPushAll a buffer raw).buffer raw').buffer,
        (encPushAll a buffer raw).out ++ (encPushAll a (encPushAll a buffer raw).buffer raw').out⟩ := by
  conv_lhs => rw [encPushAll, List.foldl_append]
  exact foldl_encPush a raw' _ _

/-- At most six bytes are ever pending after a command (10_state.md R22). -/
theorem encPushAll_pending (a : Alphabet) {buffer : List Byte} (raw : List Byte) (h : buffer.length ≤ 6) :
    (encPushAll a buffer raw).buffer.length ≤ 6 := by
  induction raw generalizing buffer with
  | nil => exact h
  | cons b raw ih =>
    simp only [encPushAll, List.foldl_cons, encPush]
    split
    · next h7 =>
      rw [foldl_encPush]
      exact ih (by simp)
    · next h7 =>
      rw [foldl_encPush]
      simp at h7
      exact ih (by simp; omega)

/-- What has been emitted and what would be flushed is always the encoding of everything presented: the invariant
behind 43_stream_encoder.md R147. -/
theorem encPushAll_encodes (a : Alphabet) {buffer : List Byte} (raw : List Byte) (h : buffer.length ≤ 6) :
    encodeBytes a (buffer ++ raw) =
      (encPushAll a buffer raw).out ++ encodeBytes a (encPushAll a buffer raw).buffer := by
  induction raw generalizing buffer with
  | nil => simp [encPushAll]
  | cons b raw ih =>
    simp only [encPushAll, List.foldl_cons, encPush]
    split
    · next h7 =>
      rw [foldl_encPush, show buffer ++ b :: raw = (buffer ++ [b]) ++ raw by simp]
      have hr := ih (buffer := []) (by simp)
      rw [List.nil_append, encodeBytes] at hr
      rw [encodeBytes, packAll_group raw h7, List.map_append, hr, List.nil_append, List.append_assoc]
    · next h7 =>
      rw [foldl_encPush, show buffer ++ b :: raw = (buffer ++ [b]) ++ raw by simp]
      simp at h7
      simpa using ih (buffer := buffer ++ [b]) (by simp; omega)

/-- The tail ENC_FLUSH emits is the encoding of the pending bytes (43_stream_encoder.md R144). -/
theorem tailBytes_eq (a : Alphabet) {buffer : List Byte} (h : buffer.length ≤ 6) :
    tailBytes a buffer = encodeBytes a buffer := by
  simp only [tailBytes, encodeBytes, packAll_short (show buffer.length < 7 by omega)]
  split <;> simp

/-! ### The decoder's loop -/

theorem readLoop_zero (a : Alphabet) (answers : List SrcAnswer) (d : DecRegs) :
    readLoop a answers 0 d = ⟨d, answers, [], .complete⟩ := by
  cases answers with
  | nil => rfl
  | cons x rest => cases x <;> rfl

/-- One good symbol at the head of the source (44_stream_decoder.md R161). -/
theorem readLoop_good (a : Alphabet) {b : Byte} {v : Sym} (h : inv a b = some v) (rest : List SrcAnswer) (n : Nat)
    (d : DecRegs) :
    readLoop a (.byte b :: rest) (n + 1) d =
      { readLoop a rest n (decPush d v).1 with
        out := (decPush d v).2.toList ++ (readLoop a rest n (decPush d v).1).out } := by
  simp [readLoop, h]

/-- Good symbols fed one by one: the registers after them and the bytes they complete, in order. -/
def feed : DecRegs → List Sym → DecRegs × List Byte
  | d, [] => (d, [])
  | d, v :: vs => ((feed (decPush d v).1 vs).1, (decPush d v).2.toList ++ (feed (decPush d v).1 vs).2)

/-- The loop over good symbols is `feed`, and goes on with what follows them (44_stream_decoder.md R163). -/
theorem readLoop_symbols {a : Alphabet} (ha : ∀ v, inv a (fwd a v) = some v) (vs : List Sym) (rest : List SrcAnswer)
    (n : Nat) (d : DecRegs) :
    readLoop a (vs.map (fun v => .byte (fwd a v)) ++ rest) (vs.length + n) d =
      { readLoop a rest n (feed d vs).1 with
        out := (feed d vs).2 ++ (readLoop a rest n (feed d vs).1).out } := by
  induction vs generalizing d with
  | nil => simp [feed]
  | cons v vs ih =>
    have : (v :: vs).length + n = vs.length + n + 1 := by simp; omega
    rw [this]
    simp only [List.map_cons, List.cons_append, readLoop_good a (ha v), ih, feed, List.append_assoc]

/-- One good symbol advances the phase by one modulo 8 and is held (44_stream_decoder.md R161). -/
theorem decPush_regs (d : DecRegs) (v : Sym) : (decPush d v).1 = ⟨d.remainder + 1, v⟩ := rfl

/-- It completes a byte unless it is the first of a group (44_stream_decoder.md R169). -/
theorem decPush_out_length (d : DecRegs) (v : Sym) :
    (decPush d v).2.toList.length = if d.remainder = 0 then 0 else 1 := by
  obtain ⟨c, h⟩ := d
  simp only [decPush, decStep, leftover]
  have hc : c.toNat < 8 := c.isLt
  have h0 : c = 0 ↔ c.toNat = 0 := by
    constructor
    · rintro rfl; rfl
    · intro h; exact BitVec.eq_of_toNat_eq (by simpa using h)
  by_cases hz : c.toNat = 0
  · simp [h0.mpr hz]
  · have : ¬ (8 - c.toNat) % 8 = 0 := by omega
    simp [this, show ¬ c = 0#3 from mt h0.mp hz]

end Sys2Proof.Laws
end

