-- ==== Sys2Proof/Laws/Exec.lean ====
section
/-! SUPPORT. Once for each meaning: everything it can do. Later proofs cite these and unfold no meaning. -/

namespace Sys2Proof.Laws

open Sys2Proof.Machine

variable {s t : State}

/-! ### Bulk transcoder -/

/-- BULK_ENC delivers the encoding of a valid range, or raises InvalidRange (42_bulk_transcoder.md R120). -/
theorem bulkEncNext_cases (offset length : Int) (s : State) :
    ((0 ≤ offset ∧ 0 ≤ length ∧ offset + length ≤ s.params.ibufSize) ∧
      bulkEncNext offset length s = s.deliver (encodeBytes s.params.alphabet (s.rangeBytes offset length))) ∨
    ∃ cause, checkRange s.params.ibufSize offset length = some cause ∧
      bulkEncNext offset length s = s.raiseBulk (.invalidRange cause) := by
  unfold bulkEncNext
  cases h : checkRange s.params.ibufSize offset length with
  | none => exact .inl ⟨checkRange_eq_none.mp h, rfl⟩
  | some cause => exact .inr ⟨cause, rfl, rfl⟩

/-- BULK_DEC delivers the bytes of a valid range of symbols, or raises InvalidRange, BAD_TAIL or BAD_SYMBOL, in that
order (42_bulk_transcoder.md R121). -/
theorem bulkDecNext_cases (offset length : Int) (s : State) :
    (∃ cause, checkRange s.params.ibufSize offset length = some cause ∧
      bulkDecNext offset length s = s.raiseBulk (.invalidRange cause)) ∨
    ((0 ≤ offset ∧ 0 ≤ length ∧ offset + length ≤ s.params.ibufSize) ∧
      ((length.toNat % 8 = 1 ∧ bulkDecNext offset length s = s.raiseBulk (.badTail length.toNat)) ∨
      (length.toNat % 8 ≠ 1 ∧
        ((∃ x, invAll s.params.alphabet (s.rangeBytes offset length) = .error x ∧
          bulkDecNext offset length s = s.raiseBulk (.badSymbol x)) ∨
        ∃ vs, invAll s.params.alphabet (s.rangeBytes offset length) = .ok vs ∧
          bulkDecNext offset length s = s.deliver (unpackAll vs))))) := by
  unfold bulkDecNext
  cases h : checkRange s.params.ibufSize offset length with
  | some cause => exact .inl ⟨cause, rfl, rfl⟩
  | none =>
    refine .inr ⟨checkRange_eq_none.mp h, ?_⟩
    by_cases h8 : length.toNat % 8 = 1
    · exact .inl ⟨h8, by simp [h8]⟩
    · refine .inr ⟨h8, ?_⟩
      cases hi : invAll s.params.alphabet (s.rangeBytes offset length) with
      | error x => exact .inl ⟨x, rfl, by simp [h8]⟩
      | ok vs => exact .inr ⟨vs, rfl, by simp [h8]⟩

@[simp] theorem length_rangeBytes (s : State) (offset length : Int) :
    (s.rangeBytes offset length).length = length.toNat := by
  simp [State.rangeBytes, memRange]

/-! ### Streaming encoder -/

/-- ENC_WRITE pushes every byte of a valid range, or raises InvalidRange (43_stream_encoder.md R143). -/
theorem encWriteNext_cases (offset length : Int) (s : State) :
    ((0 ≤ offset ∧ 0 ≤ length ∧ offset + length ≤ s.params.ibufSize) ∧
      encWriteNext offset length s =
        ((s.setEnc (encPushAll s.params.alphabet s.enc.buffer (s.rangeBytes offset length)).buffer).emitSink
          (encPushAll s.params.alphabet s.enc.buffer (s.rangeBytes offset length)).out).respond false
          (encPushAll s.params.alphabet s.enc.buffer (s.rangeBytes offset length)).out.length) ∨
    ∃ cause, checkRange s.params.ibufSize offset length = some cause ∧
      encWriteNext offset length s = s.raise (.invalidRange cause) 0 := by
  unfold encWriteNext
  cases h : checkRange s.params.ibufSize offset length with
  | none => exact .inl ⟨checkRange_eq_none.mp h, rfl⟩
  | some cause => exact .inr ⟨cause, rfl, rfl⟩

/-! ### Streaming decoder -/

/-- What the pulls of a DEC_READ can do: some good symbols are fed, in order, and then the loop ends in one of four
ways; only what it examined has left the source (44_stream_decoder.md R163, R164, R170; 20_memory.md R55). -/
theorem readLoop_cases (a : Alphabet) (answers : List SrcAnswer) (n : Nat) (d : DecRegs) :
    ∃ vs, vs.length ≤ n ∧ (readLoop a answers n d).dec = (feed d vs).1 ∧
      (readLoop a answers n d).out = (feed d vs).2 ∧
      ((vs.length = n ∧ (readLoop a answers n d).stop = .complete ∧
        answers = vs.map (fun v => .byte (fwd a v)) ++ (readLoop a answers n d).src) ∨
      (vs.length < n ∧ (readLoop a answers n d).stop = .short ∧
        (answers = vs.map (fun v => .byte (fwd a v)) ++ .short :: (readLoop a answers n d).src ∨
          answers = vs.map (fun v => .byte (fwd a v)) ∧ (readLoop a answers n d).src = [])) ∨
      (∃ x, vs.length < n ∧ (readLoop a answers n d).stop = .bad x ∧ inv a x = none ∧
        answers = vs.map (fun v => .byte (fwd a v)) ++ .byte x :: (readLoop a answers n d).src) ∨
      (vs.length < n ∧ (readLoop a answers n d).stop = .silent ∧
        answers = vs.map (fun v => .byte (fwd a v)) ++ .silent :: (readLoop a answers n d).src)) := by
  induction answers generalizing n d with
  | nil =>
    cases n with
    | zero => exact ⟨[], by simp [readLoop, feed]⟩
    | succ n => exact ⟨[], by simp [readLoop, feed]⟩
  | cons x rest ih =>
    cases n with
    | zero => exact ⟨[], by simp [readLoop_zero, feed]⟩
    | succ n =>
      cases x with
      | short => exact ⟨[], by simp [readLoop, feed]⟩
      | silent => exact ⟨[], by simp [readLoop, feed]⟩
      | byte b =>
        cases hb : inv a b with
        | none => exact ⟨[], by simp [readLoop, feed, hb]⟩
        | some v =>
          obtain ⟨vs, hlen, hdec, hout, hcases⟩ := ih n (decPush d v).1
          refine ⟨v :: vs, by simpa using hlen, ?_, ?_, ?_⟩
          · rw [readLoop_good a hb]; exact hdec
          · rw [readLoop_good a hb]; simp [feed, hout]
          · rw [readLoop_good a hb]
            have hv := fwd_of_inv hb
            rcases hcases with ⟨h1, h2, h3⟩ | ⟨h1, h2, h3⟩ | ⟨x, h1, h2, h3, h4⟩ | ⟨h1, h2, h3⟩
            · exact .inl ⟨by simp [h1], h2, by simp [hv]; exact h3⟩
            · refine .inr (.inl ⟨by simp [h1], h2, ?_⟩)
              rcases h3 with h3 | ⟨h3, h4⟩
              · exact .inl (by simp [hv]; exact h3)
              · exact .inr ⟨by simp [hv]; exact h3, h4⟩
            · exact .inr (.inr (.inl ⟨x, by simp [h1], h2, h3, by simp [hv]; exact h4⟩))
            · exact .inr (.inr (.inr ⟨by simp [h1], h2, by simp [hv]; exact h3⟩))

/-- DEC_READ raises NEG_LENGTH, or ends as its pulls did (44_stream_decoder.md R163 to R166, R170). -/
theorem execDecRead_cases (count : Int) (s : State) :
    (count < 0 ∧ execDecRead count s = .next (s.raise (.invalidRange .negLength) 0)) ∨
    (0 ≤ count ∧
      (((s.readRun count).stop = .silent ∧ execDecRead count s = .fault .sourceSilent) ∨
      (∃ x, (s.readRun count).stop = .bad x ∧
        execDecRead count s =
          .next ((s.afterRead (s.readRun count)).raise (.badSymbol x) (s.readRun count).out.length)) ∨
      (((s.readRun count).stop = .complete ∨ (s.readRun count).stop = .short) ∧
        execDecRead count s =
          .next ((s.afterRead (s.readRun count)).respond (eodOf count (s.readRun count).out.length)
            (s.readRun count).out.length)))) := by
  rcases Int.lt_or_le count 0 with h | h
  · exact .inl ⟨h, by simp [execDecRead, checkCount_of_neg h]⟩
  · refine .inr ⟨h, ?_⟩
    simp only [execDecRead, checkCount_of_nonneg h, finishRead]
    cases hs : (s.readRun count).stop with
    | silent => exact .inl ⟨rfl, rfl⟩
    | bad x => exact .inr (.inl ⟨x, rfl, rfl⟩)
    | complete => exact .inr (.inr ⟨.inl rfl, rfl⟩)
    | short => exact .inr (.inr ⟨.inr rfl, rfl⟩)

/-- DEC_AVAIL raises NEG_LENGTH, or answers `avail` (44_stream_decoder.md R167). -/
theorem decAvailNext_cases (p : Int) (s : State) :
    (p < 0 ∧ decAvailNext p s = s.raise (.invalidRange .negLength) 0) ∨
    (0 ≤ p ∧ decAvailNext p s = s.respond false (avail p.toNat s.dec.remainder.toNat)) := by
  rcases Int.lt_or_le p 0 with h | h
  · exact .inl ⟨h, by simp [decAvailNext, checkCount_of_neg h]⟩
  · exact .inr ⟨h, by simp [decAvailNext, checkCount_of_nonneg h]⟩

end Sys2Proof.Laws
end

