-- ==== Sys2Proof/Laws/Memory.lean ====
section
/-! SUPPORT. The laws of the byte memory: what a read gives after a write, that every operation keeps the canonical
form, and that two memories in canonical form that read the same are the same list. -/

namespace Sys2Proof.Laws

open Sys2Proof.Machine

theorem memWfFrom_mono {lo lo' hi : Nat} {m : Memory} (h : memWfFrom lo hi m = true) (hl : lo' ≤ lo) :
    memWfFrom lo' hi m = true := by
  cases m with
  | nil => rfl
  | cons c m =>
    simp [memWfFrom] at h ⊢
    exact ⟨⟨⟨by omega, h.1.1.2⟩, h.1.2⟩, h.2⟩

/-- Below its lowest cell a memory reads as the default. -/
theorem memRead_below {lo hi a : Nat} {m : Memory} (h : memWfFrom lo hi m = true) (ha : a < lo) :
    memRead m a = memDefault := by
  induction m generalizing lo with
  | nil => rfl
  | cons c m ih =>
    simp [memWfFrom] at h
    obtain ⟨⟨⟨h1, -⟩, -⟩, h4⟩ := h
    simp [memRead, show ¬ c.1 = a by omega, ih h4 (by omega)]

theorem memRead_memCons {lo hi a b : Nat} {v : Byte} {m : Memory} (h : memWfFrom lo hi m = true) (ha : a < lo) :
    memRead (memCons a v m) b = if b = a then v else memRead m b := by
  unfold memCons
  split
  · next hv =>
    split
    · next hb => rw [hb, memRead_below h ha, hv]
    · rfl
  · simp [memRead, eq_comm]

/-- A read after a write: the byte written at its index, every other index as before. -/
theorem memRead_memWrite {lo hi : Nat} {m : Memory} (h : memWfFrom lo hi m = true) (a b : Nat) (v : Byte) :
    memRead (memWrite m a v) b = if b = a then v else memRead m b := by
  induction m generalizing lo with
  | nil => exact memRead_memCons (lo := a + 1) (hi := 0) rfl (by omega)
  | cons c m ih =>
    have hc := h
    simp [memWfFrom] at h
    obtain ⟨⟨⟨h1, h2⟩, h3⟩, h4⟩ := h
    obtain ⟨a', w⟩ := c
    simp only [memWrite]
    split
    · exact memRead_memCons (lo := a') (hi := hi) (by simpa [memWfFrom] using ⟨⟨h2, h3⟩, h4⟩) (by omega)
    · split
      · next h5 =>
        subst h5
        rw [memRead_memCons h4 (by omega)]
        simp only [memRead]
        repeat' split
        all_goals first | rfl | omega
      · simp only [memRead, ih h4]
        repeat' split
        all_goals first | rfl | omega

theorem memCons_wf {lo hi a : Nat} {v : Byte} {m : Memory} (h : memWfFrom (a + 1) hi m = true) (hl : lo ≤ a)
    (ha : a < hi) : memWfFrom lo hi (memCons a v m) = true := by
  unfold memCons
  split
  · exact memWfFrom_mono h (by omega)
  · next hv => simp [memWfFrom, hl, ha, hv, h]

theorem memWrite_wfFrom {lo hi a : Nat} {m : Memory} (h : memWfFrom lo hi m = true) (hl : lo ≤ a) (ha : a < hi)
    (v : Byte) : memWfFrom lo hi (memWrite m a v) = true := by
  induction m generalizing lo with
  | nil => exact memCons_wf rfl hl ha
  | cons c m ih =>
    obtain ⟨a', w⟩ := c
    simp [memWfFrom] at h
    obtain ⟨⟨⟨h1, h2⟩, h3⟩, h4⟩ := h
    simp only [memWrite]
    split
    · exact memCons_wf (by simp [memWfFrom, h2, h3, h4]; omega) hl ha
    · split
      · next h5 => subst h5; exact memCons_wf h4 hl ha
      · simp [memWfFrom, h1, h2, h3, ih h4 (by omega)]

/-- Storing one byte inside the memory keeps the canonical form. -/
theorem memWrite_wf {size a : Nat} {m : Memory} (h : Memory.wf size m = true) (ha : a < size) (v : Byte) :
    Memory.wf size (memWrite m a v) = true :=
  memWrite_wfFrom h (by omega) ha v

/-- Storing bytes inside the memory keeps the canonical form. -/
theorem memWriteList_wf {size a : Nat} {m : Memory} (h : Memory.wf size m = true) (bytes : List Byte)
    (ha : a + bytes.length ≤ size) : Memory.wf size (memWriteList m a bytes) = true := by
  induction bytes generalizing a m with
  | nil => exact h
  | cons v vs ih =>
    simp at ha
    exact ih (memWrite_wf h (by omega) v) (by omega)

/-- Equal reads mean equal data: the canonical form is one form. -/
theorem memory_ext {lo hi : Nat} {m m' : Memory} (h : memWfFrom lo hi m = true) (h' : memWfFrom lo hi m' = true)
    (hr : ∀ a, memRead m a = memRead m' a) : m = m' := by
  induction m generalizing m' lo with
  | nil =>
    cases m' with
    | nil => rfl
    | cons c m' =>
      have := hr c.1
      simp [memWfFrom] at h'
      simp [memRead] at this
      exact absurd this.symm h'.1.2
  | cons c m ih =>
    obtain ⟨a, v⟩ := c
    cases m' with
    | nil =>
      have := hr a
      simp [memWfFrom] at h
      simp [memRead] at this
      exact absurd this h.1.2
    | cons c' m' =>
      obtain ⟨a', v'⟩ := c'
      simp [memWfFrom] at h h'
      obtain ⟨⟨⟨h1, h2⟩, h3⟩, h4⟩ := h
      obtain ⟨⟨⟨h1', h2'⟩, h3'⟩, h4'⟩ := h'
      have e1 := hr a
      have e2 := hr a'
      rcases Nat.lt_trichotomy a a' with hlt | heq | hgt
      · have hb := memRead_below h4' (show a < a' + 1 by omega)
        simp [memRead, show ¬ a' = a by omega, hb] at e1
        exact absurd e1 h3
      · subst heq
        simp [memRead] at e1
        subst e1
        congr 1
        refine ih h4 h4' fun b => ?_
        have hb := hr b
        by_cases hba : a = b
        · subst hba
          rw [memRead_below h4 (by omega), memRead_below h4' (by omega)]
        · simpa [memRead, hba] using hb
      · have hb := memRead_below h4 (show a' < a + 1 by omega)
        simp [memRead, show ¬ a = a' by omega, hb] at e2
        exact absurd e2.symm h3'

@[simp] theorem length_memRange (m : Memory) (offset length : Nat) : (memRange m offset length).length = length := by
  simp [memRange]

theorem getElem?_memRange (m : Memory) (offset length i : Nat) :
    (memRange m offset length)[i]? = if i < length then some (memRead m (offset + i)) else none := by
  simp only [memRange, List.getElem?_map]
  split
  · next h => simp [h]
  · next h => simp; omega

end Sys2Proof.Laws
end

