-- ==== Sys2Proof/Laws/PerInstr.lean ====
section
/-! SUPPORT. Family `TableRow`: the word of every command meets the mask and match of its row of
spec/opcode_table.json. -/

namespace Sys2Proof.Laws.TableRow

/-- The command's word, under the mask every row has, is its opcode in bits 71:64 (30_encoding.md R73). -/
def Statement (i : Instr) : Prop :=
  encode i &&& (0xFF0000000000000000 : CmdWord) = (opcode i).setWidth 72 <<< 64

/-- The mask of every row: bits 71:64. -/
theorem mask_bits : ∀ i : Fin 72, (0xFF0000000000000000 : CmdWord).getLsbD i.val = decide (64 ≤ i.val) := by decide

/-- The mask keeps the `OP` field and nothing else. -/
theorem mkWord_and_mask (op : Byte) (a b : Word) :
    mkWord op a b &&& (0xFF0000000000000000 : CmdWord) = op.setWidth 72 <<< 64 := by
  apply BitVec.eq_of_getLsbD_eq
  intro i hi
  have hm := mask_bits ⟨i, hi⟩
  simp only at hm
  rw [BitVec.getLsbD_and, hm, mkWord, BitVec.getLsbD_append, BitVec.getLsbD_append]
  by_cases h1 : i < 32
  · simp [h1, show i < 64 by omega, show ¬ 64 ≤ i by omega]
  · by_cases h2 : i < 64
    · simp [h1, h2, show ¬ 64 ≤ i by omega]
    · simp [h1, h2, hi, show ¬ i - 32 < 32 by omega, show i - 32 - 32 = i - 64 by omega, show 64 ≤ i by omega]

theorem bulkEnc (offset length : Int) : Statement (.bulkEnc offset length) := mkWord_and_mask _ _ _
theorem bulkDec (offset length : Int) : Statement (.bulkDec offset length) := mkWord_and_mask _ _ _
theorem encInit : Statement .encInit := mkWord_and_mask _ _ _
theorem encWrite (offset length : Int) : Statement (.encWrite offset length) := mkWord_and_mask _ _ _
theorem encFlush : Statement .encFlush := mkWord_and_mask _ _ _
theorem decInit : Statement .decInit := mkWord_and_mask _ _ _
theorem decRead (count : Int) : Statement (.decRead count) := mkWord_and_mask _ _ _
theorem decAvail (p : Int) : Statement (.decAvail p) := mkWord_and_mask _ _ _

end Sys2Proof.Laws.TableRow
end

