-- ==== Sys2Proof/Laws/Step.lean ====
section
/-! SUPPORT. Once for the step: everything it can do. -/

namespace Sys2Proof.Laws

open Sys2Proof.Machine

/-- A step that answers a next state did exactly one thing: nothing (no move), a command, the end of an illegal word,
or one of the host's other moves (00_scope.md R12). -/
theorem step_cases {s t : State} (h : step s = .next t) :
    (s.host = [] ∧ t = s) ∨
    (∃ w rest i, s.host = .command w :: rest ∧ decode w = .ok i ∧ exec i (s.setHost rest) = .next t) ∨
    (∃ w rest op, s.host = .command w :: rest ∧ decode w = .error (.unassignedOp op) ∧
      t = (s.setHost rest).raise (.illegalCommand op) 0) ∨
    (∃ index bytes rest, s.host = .storeIbuf index bytes :: rest ∧ index + bytes.length ≤ s.params.ibufSize ∧
      t = { s.setHost rest with ibuf := memWriteList s.ibuf index bytes }) ∨
    (∃ answers rest, s.host = .attachSource answers :: rest ∧ t = (s.setHost rest).setSrc answers) ∨
    (∃ answers rest, s.host = .feedSource answers :: rest ∧ t = (s.setHost rest).setSrc (s.src ++ answers)) ∨
    (∃ rest, s.host = .drainSink :: rest ∧ t = { s.setHost rest with sink := [] }) ∨
    (∃ rest, s.host = .drainDout :: rest ∧ t = { s.setHost rest with dout := [] }) ∨
    (∃ rest, s.host = .reset :: rest ∧ t = (s.setHost rest).hardReset) ∨
    (∃ w made rest, s.host = .resetDuring w made :: rest ∧ t = resetDuringWord w made (s.setHost rest)) := by
  unfold step State.take at h
  cases hh : s.host with
  | nil => simp [hh] at h; exact .inl ⟨rfl, h.symm⟩
  | cons e rest =>
    refine .inr ?_
    rw [hh] at h
    cases e with
    | command w =>
      simp only at h
      cases hd : decode w with
      | ok i => rw [hd] at h; exact .inl ⟨w, rest, i, rfl, hd, h⟩
      | error e =>
        obtain ⟨op⟩ := e
        rw [hd] at h
        simp only [Host.Outcome.next.injEq] at h
        exact .inr (.inl ⟨w, rest, op, rfl, hd, h.symm⟩)
    | storeIbuf index bytes =>
      simp only [storeIbuf] at h
      split at h
      · next hle =>
        simp only [Host.Outcome.next.injEq] at h
        exact .inr (.inr (.inl ⟨index, bytes, rest, rfl, hle, h.symm⟩))
      · cases h
    | attachSource answers =>
      simp only [Host.Outcome.next.injEq] at h
      exact .inr (.inr (.inr (.inl ⟨answers, rest, rfl, h.symm⟩)))
    | feedSource answers =>
      simp only [Host.Outcome.next.injEq] at h
      exact .inr (.inr (.inr (.inr (.inl ⟨answers, rest, rfl, h.symm⟩))))
    | drainSink =>
      simp only [Host.Outcome.next.injEq] at h
      exact .inr (.inr (.inr (.inr (.inr (.inl ⟨rest, rfl, h.symm⟩)))))
    | drainDout =>
      simp only [Host.Outcome.next.injEq] at h
      exact .inr (.inr (.inr (.inr (.inr (.inr (.inl ⟨rest, rfl, h.symm⟩))))))
    | reset =>
      simp only [Host.Outcome.next.injEq] at h
      exact .inr (.inr (.inr (.inr (.inr (.inr (.inr (.inl ⟨rest, rfl, h.symm⟩)))))))
    | resetDuring w made =>
      simp only [Host.Outcome.next.injEq] at h
      exact .inr (.inr (.inr (.inr (.inr (.inr (.inr (.inr ⟨w, made, rest, rfl, h.symm⟩)))))))

/-- The word of the opcode table presented to the machine is the next thing the step takes. -/
theorem take_withFetchWord (s : State) (nbits w : Nat) :
    (s.withFetchWord nbits w).take = .word (tableWord nbits w) s := rfl

end Sys2Proof.Laws
end

