-- ==== Sys2Proof/Laws/StreamEvents.lean ====
section
/-! SUPPORT. The stream events of a command are what it does to the streams; a reset in the middle of it; systems of
instances. -/

namespace Sys2Proof.Laws

open Sys2Proof.Machine

variable (s : State)

/-! ### Events -/

@[simp] theorem streamEvents_nil : s.streamEvents [] = s := rfl
@[simp] theorem streamEvents_cons (e : StreamEvent) (es : List StreamEvent) :
    s.streamEvents (e :: es) = (s.streamEvent e).streamEvents es := rfl
@[simp] theorem streamEvents_append (es es' : List StreamEvent) :
    s.streamEvents (es ++ es') = (s.streamEvents es).streamEvents es' := by
  simp [State.streamEvents, List.foldl_append]

/-- Events change the streams alone, and those only forward: the source loses answers from its front, the outputs grow. -/
theorem streamEvents_eq (es : List StreamEvent) :
    ∃ n out emitted, s.streamEvents es = ((s.setSrc (s.src.drop n)).emitDout out).emitSink emitted := by
  induction es generalizing s with
  | nil => exact ⟨0, [], [], by simp [State.setSrc, State.emitDout, State.emitSink]⟩
  | cons e es ih =>
    obtain ⟨n, out, emitted, h⟩ := ih (s.streamEvent e)
    rw [streamEvents_cons, h]
    cases e with
    | pull => exact ⟨n + 1, out, emitted, by simp [State.streamEvent, State.setSrc, State.emitDout, State.emitSink]⟩
    | emitDout b =>
      exact ⟨n, b :: out, emitted, by simp [State.streamEvent, State.setSrc, State.emitDout, State.emitSink]⟩
    | emitSink b =>
      exact ⟨n, out, b :: emitted, by simp [State.streamEvent, State.setSrc, State.emitDout, State.emitSink]⟩

/-- Symbol bytes emitted one event at a time. -/
theorem streamEvents_emitSink (bytes : List Byte) : s.streamEvents (bytes.map .emitSink) = s.emitSink bytes := by
  induction bytes generalizing s with
  | nil => simp [State.emitSink]
  | cons b bytes ih => simp [ih, State.streamEvent, State.emitSink]

/-- Raw bytes emitted one event at a time. -/
theorem streamEvents_emitDout (bytes : List Byte) : s.streamEvents (bytes.map .emitDout) = s.emitDout bytes := by
  induction bytes generalizing s with
  | nil => simp [State.emitDout]
  | cons b bytes ih => simp [ih, State.streamEvent, State.emitDout]

/-- The events of the loop of DEC_READ do to the streams what the loop does (44_stream_decoder.md R163). -/
theorem streamEvents_readEvents (a : Alphabet) (n : Nat) (d : DecRegs) :
    s.streamEvents (readEvents a s.src n d) =
      (s.setSrc (readLoop a s.src n d).src).emitDout (readLoop a s.src n d).out := by
  generalize hs : s.src = answers
  induction answers generalizing s n d with
  | nil =>
    cases n with
    | zero => simp [readEvents, readLoop, State.setSrc, State.emitDout, ← hs]
    | succ n => simp [readEvents, readLoop, State.streamEvent, State.setSrc, State.emitDout, hs]
  | cons x rest ih =>
    cases n with
    | zero => simp [readEvents, readLoop_zero, State.setSrc, State.emitDout, ← hs]
    | succ n =>
      cases x with
      | short => simp [readEvents, readLoop, State.streamEvent, State.setSrc, State.emitDout, hs]
      | silent => simp [readEvents, readLoop, State.streamEvent, State.setSrc, State.emitDout, hs]
      | byte b =>
        cases hb : inv a b with
        | none => simp [readEvents, readLoop, State.streamEvent, State.setSrc, State.emitDout, hs, hb]
        | some v =>
          rw [readLoop_good a hb]
          simp only [readEvents, hb, streamEvents_cons, streamEvents_append, streamEvents_emitDout]
          rw [ih _ n (decPush d v).1 (by simp [State.streamEvent, State.setSrc, State.emitDout, hs])]
          simp [State.streamEvent, State.setSrc, State.emitDout]

/-- All the stream events of a command that ends are what it does to the streams. -/
theorem streamEvents_commandEvents {i : Instr} {t : State} (h : exec i s = .next t) :
    (s.streamEvents (commandEvents i s)).src = t.src ∧ (s.streamEvents (commandEvents i s)).sink = t.sink ∧
      (s.streamEvents (commandEvents i s)).dout = t.dout := by
  cases i with
  | bulkEnc offset length =>
    simp only [exec, execBulkEnc, Host.Outcome.next.injEq] at h
    subst h
    rcases bulkEncNext_cases offset length s with ⟨-, h⟩ | ⟨_, -, h⟩ <;> simp [commandEvents, h]
  | bulkDec offset length =>
    simp only [exec, execBulkDec, bulkDecNext, Host.Outcome.next.injEq] at h
    subst h
    repeat' split
    all_goals simp [commandEvents]
  | encInit => cases h; simp [commandEvents]
  | encWrite offset length =>
    simp only [exec, execEncWrite, encWriteNext, Host.Outcome.next.injEq] at h
    subst h
    cases hc : checkRange s.params.ibufSize offset length <;> simp [commandEvents, hc, streamEvents_emitSink]
  | encFlush => cases h; simp [commandEvents, streamEvents_emitSink]
  | decInit => cases h; simp [commandEvents]
  | decRead count =>
    simp only [exec] at h
    rcases execDecRead_cases count s with ⟨hn, he⟩ | ⟨hn, ⟨-, he⟩ | ⟨x, -, he⟩ | ⟨-, he⟩⟩ <;> rw [he] at h <;> cases h
    · simp [commandEvents, checkCount_of_neg hn]
    · simp [commandEvents, checkCount_of_nonneg hn, streamEvents_readEvents, State.readRun]
    · simp [commandEvents, checkCount_of_nonneg hn, streamEvents_readEvents, State.readRun]
  | decAvail p =>
    simp only [exec, execDecAvail, Host.Outcome.next.injEq] at h
    subst h
    rcases decAvailNext_cases p s with ⟨-, h⟩ | ⟨-, h⟩ <;> simp [commandEvents, h]

/-! ### Reset -/

@[simp] theorem hardReset_params : s.hardReset.params = s.params := rfl
@[simp] theorem hardReset_enc : s.hardReset.enc = ⟨[]⟩ := rfl
@[simp] theorem hardReset_dec : s.hardReset.dec = ⟨0, Config.freeHold (s.draws + 1)⟩ := rfl
@[simp] theorem hardReset_status : s.hardReset.status = 0 := rfl
@[simp] theorem hardReset_rlen : s.hardReset.rlen = 0 := rfl
@[simp] theorem hardReset_finfo : s.hardReset.finfo = 0 := rfl
@[simp] theorem hardReset_ibuf : s.hardReset.ibuf = s.ibuf := rfl
@[simp] theorem hardReset_rbuf : s.hardReset.rbuf = ⟨[], s.draws⟩ := rfl
@[simp] theorem hardReset_src : s.hardReset.src = s.src := rfl
@[simp] theorem hardReset_sink : s.hardReset.sink = s.sink := rfl
@[simp] theorem hardReset_dout : s.hardReset.dout = s.dout := rfl
@[simp] theorem hardReset_host : s.hardReset.host = s.host := rfl
@[simp] theorem hardReset_draws : s.hardReset.draws = s.draws + 2 := rfl

/-- A reset in the middle of any word is a reset after some progress of the streams (70_reset_and_hazards.md R221). -/
theorem resetDuringWord_eq (w : CmdWord) (made : Nat) :
    ∃ n out emitted, resetDuringWord w made s =
      (((s.setSrc (s.src.drop n)).emitDout out).emitSink emitted).hardReset := by
  unfold resetDuringWord
  cases decode w with
  | error e => exact ⟨0, [], [], by simp [State.setSrc, State.emitDout, State.emitSink]⟩
  | ok i =>
    obtain ⟨n, out, emitted, h⟩ := streamEvents_eq s ((commandEvents i s).take made)
    exact ⟨n, out, emitted, by simp only [State.resetDuring, h]⟩

/-! ### Instances -/

@[simp] theorem systemRun_nil (sys : System) : System.run [] sys = sys := rfl
@[simp] theorem systemRun_cons (k : Nat) (schedule : List Nat) (sys : System) :
    System.run (k :: schedule) sys = System.run schedule (System.step k sys) := rfl

theorem systemStep_getElem? (k j : Nat) (sys : System) :
    (System.step k sys)[j]? = if k = j then sys[j]?.map Slot.step else sys[j]? := by
  simp [System.step, List.getElem?_modify]; split <;> simp

end Sys2Proof.Laws
end

