-- ==== Sys2Proof/Tests/Slice0.lean ====
section
/-! SUPPORT. Tests of single steps against 95_test_vectors.md (the vector is named at each), decoding of words written
out from 30_encoding.md, refused ill-formed terms, and a witness for every statement that has hypotheses. -/

namespace Sys2Proof.Tests

open Sys2Proof.Machine Sys2Proof.Safety

/-! ### Small states -/

/-- The test alphabet `TA[v] = 0x80 | v` (95_test_vectors.md section 0). -/
def testAlphabet : Alphabet := Vector.ofFn fun i : Fin 128 => 0x80 ||| BitVec.ofNat 8 i.val

/-- An idle block with the test alphabet and `IBUF_SIZE = n`. -/
def idle (n : Nat) : State := { State.reset with params := ⟨testAlphabet, n, encLen n⟩ }

/-- An idle block of `IBUF_SIZE = 32` whose `IBUF` holds bytes from an index. -/
def holding (index : Nat) (bytes : List Byte) : State := { idle 32 with ibuf := memWriteList [] index bytes }

/-- A block whose encoder has these bytes pending. -/
def pending (s : State) (bytes : List Byte) : State := s.setEnc bytes

/-- A block whose decoder is at a phase with a held symbol, and its source. -/
def reading (c : BitVec 3) (hold : Sym) (answers : List SrcAnswer) : State :=
  { idle 32 with dec := ⟨c, hold⟩, src := answers }

/-- A block the host hands one word to. -/
def handed (s : State) (w : CmdWord) : State := { s with host := [.command w] }

/-- The outcome is a next state of which `p` holds. -/
def gives (o : Host.Outcome State Fault Refusal) (p : State → Bool) : Bool :=
  match o with
  | .next t => p t
  | .fault _ => false
  | .refused _ => false

/-- A test of a next state shows that there is one. -/
theorem next_of_gives {o : Host.Outcome State Fault Refusal} {p : State → Bool} (h : gives o p = true) :
    ∃ t, o = .next t ∧ p t = true := by
  cases o with
  | next t => exact ⟨t, rfl, h⟩
  | fault f => cases h
  | refused r => cases h

/-! ### Decoding: words written out bit by bit from 30_encoding.md R70 and R73 (95_test_vectors.md V70) -/

theorem test_decode_bulk_enc : decode 0x010000000000000046 = .ok (.bulkEnc 0 70) := by decide
theorem test_decode_bulk_enc_negative : decode 0x01FFFFFFFF00000004 = .ok (.bulkEnc (-1) 4) := by decide
theorem test_decode_bulk_dec : decode 0x02000000140000000A = .ok (.bulkDec 20 10) := by decide
theorem test_decode_enc_init : decode 0x030000000000000000 = .ok .encInit := by decide
theorem test_decode_enc_write : decode 0x040000000300000007 = .ok (.encWrite 3 7) := by decide
theorem test_decode_enc_flush_junk : decode 0x05DEADBEEF12345678 = .ok .encFlush := by decide
theorem test_decode_dec_init : decode 0x060000000000000000 = .ok .decInit := by decide
theorem test_decode_dec_read_negative : decode 0x0700000000FFFFFFFB = .ok (.decRead (-5)) := by decide
theorem test_decode_dec_read_junk : decode 0x07CAFEF00D00000004 = .ok (.decRead 4) := by decide
theorem test_decode_dec_avail : decode 0x08000000000000000C = .ok (.decAvail 12) := by decide
theorem test_decode_zero_word : decode 0 = .error (.unassignedOp 0) := by decide
theorem test_decode_op_09 : decode 0x090000000000000000 = .error (.unassignedOp 9) := by decide
theorem test_decode_op_FF : decode 0xFF0000000000000000 = .error (.unassignedOp 255) := by decide
theorem test_encode_dec_read : encode (.decRead (-5)) = 0x0700000000FFFFFFFB := by decide

/-! ### Well-formedness refuses operands no 32-bit signed field carries (30_encoding.md R72) -/

theorem test_wf_bulk_enc_offset : (Instr.bulkEnc (2 ^ 31) 0).wellFormed = false := by decide
theorem test_wf_bulk_enc_length : (Instr.bulkEnc 0 (-(2 ^ 31) - 1)).wellFormed = false := by decide
theorem test_wf_bulk_dec_offset : (Instr.bulkDec (-(2 ^ 31) - 1) 0).wellFormed = false := by decide
theorem test_wf_bulk_dec_length : (Instr.bulkDec 0 (2 ^ 31)).wellFormed = false := by decide
theorem test_wf_enc_write_offset : (Instr.encWrite (2 ^ 31) 0).wellFormed = false := by decide
theorem test_wf_enc_write_length : (Instr.encWrite 0 (2 ^ 31)).wellFormed = false := by decide
theorem test_wf_dec_read : (Instr.decRead (2 ^ 31)).wellFormed = false := by decide
theorem test_wf_dec_avail : (Instr.decAvail (-(2 ^ 31) - 1)).wellFormed = false := by decide

/-! ### Packing primitives -/

/-- V1: `enc_len` at the largest input. -/
theorem test_enc_len_largest : encLen 2147483647 = 2454267026 := by decide
/-- V3: the tail of "AB". -/
theorem test_pack_tail : pack [0x41, 0x42] = [0x20, 0x50, 0x40] := by decide
/-- V3: a full group, "ABCDEFG". -/
theorem test_pack_group :
    pack [0x41, 0x42, 0x43, 0x44, 0x45, 0x46, 0x47] = [0x20, 0x50, 0x48, 0x34, 0x22, 0x15, 0x0C, 0x47] := by decide
/-- V5: padding bits are discarded unexamined. -/
theorem test_unpack_padding : unpack [0x7F, 0x7F] = [0xFF] := by decide
/-- V6: the first and the last byte of a group. -/
theorem test_align : barrelAlign 0x20 0x50 7 = 0x41 ∧ barrelAlign 0x7E 0x00 1 = 0x00 ∧ barrelAlign 0x50 0x48 6 = 0x42 := by
  decide
/-- V8: the row of `c` = 7, `k` = 0 to 16. -/
theorem test_need_row :
    (List.range 17).map (fun k => need k 7) = [0, 1, 3, 4, 5, 6, 7, 8, 9, 11, 12, 13, 14, 15, 16, 17, 19] := by decide
/-- V9: the row of `c` = 5, `p` = 0 to 17. -/
theorem test_avail_row :
    (List.range 18).map (fun p => avail p 5) = [0, 1, 2, 3, 3, 4, 5, 6, 7, 8, 9, 10, 10, 11, 12, 13, 14, 15] := by
  decide
/-- V10. -/
theorem test_alphabet :
    fwd testAlphabet 0x7F = 0xFF ∧ inv testAlphabet 0xC0 = some 0x40 ∧ inv testAlphabet 0x7F = none := by decide

/-! ### Commands -/

/-- V22: a sub-range, 8 bytes, the neighbours without effect. -/
theorem test_bulk_enc_range :
    gives (exec (.bulkEnc 5 8) (holding 4 [0xEE, 0x41, 0x42, 0x43, 0x44, 0x45, 0x46, 0x47, 0x48, 0xEE])) (fun t =>
      t.rbuf.written = [0xA0, 0xD0, 0xC8, 0xB4, 0xA2, 0x95, 0x8C, 0xC7, 0xA4, 0x80] && t.rlen = 10 && t.status = 0) := by
  decide
/-- V28: streaming state alone. -/
theorem test_bulk_enc_views :
    gives (exec (.bulkEnc 0 7) (pending (reading 5 0x18 []) [1, 2])) (fun t =>
      t.status = 0x5200 && t.enc.count = 2 && t.dec = ⟨5, 0x18⟩) := by decide
/-- V23. -/
theorem test_bulk_dec :
    gives (exec (.bulkDec 20 10) (holding 20 [0xA0, 0xD0, 0xC8, 0xB4, 0xA2, 0x95, 0x8C, 0xC7, 0xA4, 0x80])) (fun t =>
      t.rbuf.written = [0x41, 0x42, 0x43, 0x44, 0x45, 0x46, 0x47, 0x48] && t.rlen = 8 && t.status = 0) := by decide
/-- V42: BAD_SYMBOL. -/
theorem test_bulk_dec_bad_symbol :
    gives (exec (.bulkDec 20 10) (holding 20 [0xA0, 0xD0, 0x41, 0xB4, 0xA2, 0x95, 0x8C, 0xC7, 0xA4, 0x80])) (fun t =>
      t.status = 2 && t.finfo = 65 && t.rlen = 0) := by decide
/-- V41 and V60: BAD_TAIL from the length, an invalid range before it. -/
theorem test_bulk_dec_order :
    gives (exec (.bulkDec 20 9) (idle 32)) (fun t => t.status = 6 && t.finfo = 9 && t.rlen = 0) ∧
    gives (exec (.bulkDec (-1) (-1)) (idle 32)) (fun t => t.status = 1) ∧
    gives (exec (.bulkDec 2147483647 2147483647) (idle 32)) (fun t => t.status = 9) := by decide
/-- V37. -/
theorem test_enc_init :
    gives (exec .encInit (pending (idle 32) [1, 2])) (fun t => t.enc.count = 0 && t.rlen = 0 && t.sink = []) := by decide
/-- V31. -/
theorem test_enc_write_group :
    gives (exec (.encWrite 0 9) (holding 0 (List.replicate 9 0xFF))) (fun t =>
      t.sink = List.replicate 8 0xFF && t.enc.buffer = [0xFF, 0xFF] && t.rlen = 8 && t.status = 0x200) := by decide
/-- V61: a faulted write leaves the encoder alone. -/
theorem test_enc_write_fault :
    gives (exec (.encWrite 10 7) (pending (idle 16) [0xFF, 0xFF])) (fun t =>
      t.status = 0x209 && t.enc.buffer = [0xFF, 0xFF] && t.sink = []) := by decide
/-- V30. -/
theorem test_enc_flush :
    gives (exec .encFlush (pending (idle 32) [0x41, 0x42, 0x43])) (fun t =>
      t.sink = [0xA0, 0xD0, 0xC8, 0xB0] && t.rlen = 4 && t.enc.count = 0 && t.status = 0) := by decide
/-- The example of 44_stream_decoder.md R162. -/
theorem test_dec_init :
    gives (exec .decInit (reading 4 0x10 [.byte 0x80])) (fun t =>
      t.dec.remainder = 0 && t.status = 0 && t.src = [.byte 0x80]) := by decide
/-- V44: bytes before a bad symbol stay, nothing after it is pulled. -/
theorem test_dec_read_bad_symbol :
    gives (exec (.decRead 3) (reading 0 0 [.byte 0xFF, .byte 0xC0, .byte 0x7F, .byte 0xA0, .byte 0xD0])) (fun t =>
      t.status = 0x2002 && t.finfo = 127 && t.rlen = 1 && t.dout = [0xFF] && t.dec = ⟨2, 0x40⟩ &&
        t.src = [.byte 0xA0, .byte 0xD0]) := by decide
/-- V46: the source answers FF, then none; the symbol after it is never seen. -/
theorem test_dec_read_short :
    gives (exec (.decRead 7) (reading 0 0 [.byte 0xFF, .short, .byte 0x7F])) (fun t =>
      t.status = 0x1010 && t.rlen = 0 && t.dec = ⟨1, 0x7F⟩ && t.src = [.byte 0x7F]) := by decide
/-- V52: state 5, `p` = 7. -/
theorem test_dec_avail :
    gives (exec (.decAvail 7) (reading 5 0x18 [])) (fun t => t.rlen = 6 && t.status = 0x5000) := by decide
/-- V51. -/
theorem test_dec_avail_negative : gives (exec (.decAvail (-1)) (idle 32)) (fun t => t.status = 5 && t.rlen = 0) := by
  decide

/-! ### Steps -/

/-- V62: the all-ones opcode. -/
theorem test_step_illegal :
    gives (step (handed (pending (idle 32) [1, 2]) 0xFF0000000000000000)) (fun t =>
      t.status = 0x203 && t.finfo = 255 && t.rlen = 0 && t.host = []) := by decide
/-- The first step from reset runs the word presented to it, for each row of the opcode table. -/
theorem test_step_from_reset (op : Fin 9) (h : op ≠ 0) :
    ∃ t, step (State.reset.withFetchWord 72 (op.val * 2 ^ 64)) = .next t := by
  fin_cases op
  · exact absurd rfl h
  all_goals exact ⟨_, rfl⟩
theorem test_table_words :
    ((List.range 10).map fun op => decodeTableWord 72 (op * 2 ^ 64)) =
      [none, some (.bulkEnc 0 0), some (.bulkDec 0 0), some .encInit, some (.encWrite 0 0), some .encFlush,
        some .decInit, some (.decRead 0), some (.decAvail 0), none] := by decide
/-- 70_reset_and_hazards.md R221: reset leaves the environment. -/
theorem test_step_reset :
    gives (step { pending (reading 5 1 [.byte 0x80]) [1, 2] with host := [.reset], sink := [7], status := 0x5200 })
      (fun t => t.enc.count = 0 && t.dec.remainder = 0 && t.status = 0 && t.src = [.byte 0x80] && t.sink = [7]) := by
  decide
/-- 70_reset_and_hazards.md R220, R221: reset after the first of the two symbols of an ENC_FLUSH. -/
theorem test_step_reset_during_flush :
    gives (step { pending (idle 32) [0xFF] with host := [.resetDuring 0x050000000000000000 1], status := 0x100 })
      (fun t => t.sink = [0xFF] && t.enc.count = 0 && t.status = 0 && t.host = []) := by decide
/-- 70_reset_and_hazards.md R236, R221: reset is the way out of a DEC_READ that waits; the byte it emitted stays. -/
theorem test_step_reset_during_wait :
    gives (step { reading 0 0 [.byte 0xFF, .byte 0xC0, .silent, .byte 0x80] with
        host := [.resetDuring 0x070000000000000002 9] })
      (fun t => t.dout = [0xFF] && t.src = [.byte 0x80] && t.dec.remainder = 0 && t.rlen = 0) := by decide
/-- 60_exceptions.md R203: an instance that hangs stops no other. -/
theorem test_hung_instance_stops_no_other :
    (System.run [0, 0, 1] [.running (handed (reading 0 0 [.silent]) 0x070000000000000001),
        .running (handed (pending (idle 32) [1]) 0x050000000000000000)]).map (fun x =>
      (match x with | .running t => t.rlen.toNat | .stopped _ f => if f = .sourceSilent then 100 else 101 | .refused _ _ => 102)) =
      [100, 2] := by decide
/-- 20_memory.md R51: there is nothing to store to outside `IBUF`. -/
theorem test_step_store_outside :
    step { idle 32 with host := [.storeIbuf 31 [1, 2]] } = .fault .hostStoreOutsideIbuf := rfl

/-! ### Witnesses: the hypotheses of each statement can be met, each clause at a boundary -/

theorem testAlphabet_nodup : testAlphabet.toList.Nodup := by decide +kernel

theorem params_idle : ParamsOk (idle 32).params := ⟨testAlphabet_nodup, by decide, by decide⟩

theorem inv_idle : Inv (idle 32) where
  params := params_idle
  pending := by decide
  ibufWf := by decide
  resultFits := by decide
  encView := by decide
  decView := by decide
  reserved := by decide
  noFault := by decide
  endOfData := by decide

/-- No 7-bit value gives the byte 0x7F under the test alphabet. -/
theorem not_in_testAlphabet : ∀ v, fwd testAlphabet v ≠ 0x7F := Laws.inv_eq_none_iff.mp (by decide)

theorem rangeOk_idle : RangeOk (idle 32) 32 0 ∧ RangeOk (idle 32) 0 32 ∧ RangeOk (idle 32) 30 2 := by
  simp [RangeOk, idle]

theorem not_rangeOk_idle : ¬ RangeOk (idle 32) (-1) 4 ∧ ¬ RangeOk (idle 32) 0 (-1) ∧ ¬ RangeOk (idle 32) 33 0 := by
  simp [RangeOk, idle]

theorem witness_DecodeEncodeRoundTrip : (Instr.bulkEnc (-(2 ^ 31)) (2 ^ 31 - 1)).WellFormed := by decide
theorem witness_DecodedCommandReencodes : decode 0x0480000000FFFFFFFF = .ok (.encWrite (-(2 ^ 31)) (-1)) := by decide
theorem witness_UnusedFieldsIgnored : ((0x08 : Byte) = 0x07 ∨ (0x08 : Byte) = 0x08) ∧
    ((0x06 : Byte) = 0x03 ∨ (0x06 : Byte) = 0x05 ∨ (0x06 : Byte) = 0x06) := by decide
theorem witness_StepRunsDecodedCommand :
    (handed (idle 32) 0x05DEADBEEF12345678).host = .command 0x05DEADBEEF12345678 :: [] ∧
      decode 0x05DEADBEEF12345678 = .ok .encFlush := by decide
theorem witness_IllegalWordRaisesOnly :
    (handed (idle 32) 0).host = .command 0 :: [] ∧ (opField 0 = 0 ∨ 9 ≤ (opField 0).toNat) ∧
      (opField 0x090000000000000000 = 0 ∨ 9 ≤ (opField 0x090000000000000000).toNat) := by decide
theorem witness_HostMovesBetweenCommands :
    (idle 32).host = [] ∧
      { idle 32 with host := [HostEvent.attachSource [.short]] }.host = .attachSource [.short] :: [] ∧
      { idle 32 with host := [HostEvent.feedSource [.short]] }.host = .feedSource [.short] :: [] ∧
      { idle 32 with host := [HostEvent.drainSink] }.host = .drainSink :: [] ∧
      { idle 32 with host := [HostEvent.drainDout] }.host = .drainDout :: [] := by decide
theorem witness_HostStoreReachesOnlyItsRange :
    { idle 32 with host := [HostEvent.storeIbuf 30 [1, 2]] }.host = .storeIbuf 30 [1, 2] :: [] ∧
      Memory.wf 32 (idle 32).ibuf = true ∧ 30 + [(1 : Byte), 2].length ≤ (idle 32).params.ibufSize ∧
      (idle 32).params.ibufSize < 31 + [(1 : Byte), 2].length := by decide
theorem witness_HardwareResetRegisters :
    { idle 32 with host := [HostEvent.reset] }.host = .reset :: [] ∧
      { idle 32 with host := [HostEvent.resetDuring 0 0] }.host = .resetDuring 0 0 :: [] := by decide
theorem witness_ResetDuringCommandKeepsProgress :
    ∃ u v, decode 0x070000000000000001 = .ok (.decRead 1) ∧ decode 0x050000000000000000 = .ok .encFlush ∧
      exec .encFlush (pending (idle 32) [1]) = .next u ∧
      (commandEvents .encFlush (pending (idle 32) [1])).length ≤ 2 ∧
      exec (.decRead 1) (reading 0 0 [.byte 0xFF, .byte 0xC0]) = .next v ∧
      (reading 0 0 [.byte 0xFF, .byte 0xC0]).src = symbolSource testAlphabet [0x7F, 0x40] ++ [] ∧
      ([0x7F, 0x40] : List Sym).length = need (1 : Int).toNat (0 : BitVec 3).toNat ∧
      3 ≤ ([0x7F, 0x40] : List Sym).length + (1 : Int).toNat :=
  ⟨_, _, by decide, by decide, rfl, by decide, rfl, by decide, by decide, by decide⟩
theorem witness_IssuedCommandsRunInOrder : ∀ i ∈ [Instr.encWrite 0 32, .encFlush, .decRead (2 ^ 31 - 1)], i.WellFormed := by
  decide
theorem witness_StepKeepsInvariant :
    ∃ t, Inv (handed (idle 32) 0x040000000000000009) ∧ step (handed (idle 32) 0x040000000000000009) = .next t :=
  ⟨_, { params := params_idle, pending := by decide, ibufWf := by decide, resultFits := by decide, encView := by decide,
        decView := by decide, reserved := by decide, noFault := by decide, endOfData := by decide }, rfl⟩
theorem witness_CommandsAlwaysEnd :
    (handed (reading 0 0 [.byte 0xFF]) 0x070000000000000001).host = .command 0x070000000000000001 :: [] ∧
      SourceAnswers (handed (reading 0 0 [.byte 0xFF]) 0x070000000000000001) ∧
      step (handed (reading 0 0 [.byte 0xFF, .silent]) 0x070000000000000001) = .fault .sourceSilent :=
  ⟨rfl, by simp [SourceAnswers, handed, reading], rfl⟩
theorem witness_RomLookupsNeverChange : ∃ t, step { idle 32 with host := [.reset] } = .next t := ⟨_, rfl⟩
theorem witness_EndOfDataFlagExactly : gives (exec (.decRead 1) (idle 32)) (fun t => statusEOD t.status) = true := by decide
theorem witness_WhichCommandsRaiseWhat :
    gives (exec (.bulkDec 0 9) (idle 32)) (fun t => statusFC t.status = 2) = true ∧
      ∃ t, exec .encFlush (idle 32) = .next t := ⟨by decide, _, rfl⟩
theorem witness_AlphabetRoundTrip :
    testAlphabet.toList.Nodup ∧ inv testAlphabet 0x80 = some 0 ∧ inv testAlphabet 0xFF = some 127 :=
  ⟨testAlphabet_nodup, by decide, by decide⟩
theorem witness_NeedAndAvailAreAdjoint : 7 < 8 ∧ need 2 7 ≤ 3 ∧ 2 ≤ avail 3 7 := by decide
theorem witness_PaddingBitsAreIgnored :
    (0x40 : Sym) >>> (7 - [(0x7F : Sym)].length) = (0x7F : Sym) >>> (7 - [(0x7F : Sym)].length) := by decide
theorem witness_BulkEncDeliversSymbols :
    ParamsOk (idle 32).params ∧ RangeOk (idle 32) 32 0 ∧ ¬ RangeOk (idle 32) 33 0 ∧ 3 < (32 : Int).toNat / 7 ∧
      4 < pad ((32 : Int).toNat % 7) :=
  ⟨params_idle, rangeOk_idle.1, not_rangeOk_idle.2.2, by decide, by decide⟩
theorem witness_BulkEncKeepsTheBitString : ParamsOk (idle 32).params ∧ RangeOk (idle 32) 0 32 :=
  ⟨params_idle, rangeOk_idle.2.1⟩
theorem witness_BulkDecDeliversBytes :
    ParamsOk (holding 30 [0xFF, 0xC0]).params ∧ RangeOk (holding 30 [0xFF, 0xC0]) 30 2 ∧ (2 : Int).toNat % 8 ≠ 1 ∧
      ∀ j, j < (2 : Int).toNat → memRead (holding 30 [0xFF, 0xC0]).ibuf ((30 : Int).toNat + j) =
        fwd (holding 30 [0xFF, 0xC0]).params.alphabet (if j = 0 then 0x7F else 0x40) :=
  ⟨params_idle, rangeOk_idle.2.2, by decide, by decide⟩
theorem witness_BulkDecFaults_badTail : RangeOk (idle 32) 0 25 ∧ (25 : Int).toNat % 8 = 1 := by
  simp [RangeOk, idle]
theorem witness_BulkDecFaults_badSymbol :
    RangeOk (holding 30 [0x80, 0x7F]) 30 2 ∧ (2 : Int).toNat % 8 ≠ 1 ∧ 1 < (2 : Int).toNat ∧
      (∀ v, fwd (holding 30 [0x80, 0x7F]).params.alphabet v ≠
        memRead (holding 30 [0x80, 0x7F]).ibuf ((30 : Int).toNat + 1)) ∧
      ∀ j, j < 1 → ∃ v, fwd (holding 30 [0x80, 0x7F]).params.alphabet v =
        memRead (holding 30 [0x80, 0x7F]).ibuf ((30 : Int).toNat + j) :=
  ⟨rangeOk_idle.2.2, by decide, by decide, not_in_testAlphabet, fun j hj => ⟨0, by
    obtain rfl : j = 0 := by omega
    decide⟩⟩
theorem witness_BulkValidationLaw :
    gives (exec (.bulkDec 2147483647 2147483647) (idle 32)) (fun t => statusFC t.status = 1) = true := by decide
theorem witness_BulkIsStateless : ∃ t, exec (.bulkEnc 0 32) (idle 32) = .next t := ⟨_, rfl⟩
theorem witness_BulkOffsetComposition :
    ParamsOk (holding 30 [1, 2]).params ∧ (holding 30 [1, 2]).params.alphabet = (holding 0 [1, 2]).params.alphabet ∧
      RangeOk (holding 30 [1, 2]) 30 2 ∧ RangeOk (holding 0 [1, 2]) 0 2 ∧
      ∀ k, k < (2 : Int).toNat → memRead (holding 30 [1, 2]).ibuf ((30 : Int).toNat + k) =
        memRead (holding 0 [1, 2]).ibuf ((0 : Int).toNat + k) :=
  ⟨params_idle, rfl, rangeOk_idle.2.2, by simp [RangeOk, holding, idle], by decide⟩
theorem witness_BulkRoundTrip :
    ∃ t, exec (.bulkEnc 31 1) (holding 31 [0xFF]) = .next t ∧ RangeOk (holding 31 [0xFF]) 31 1 ∧
      RangeOk (holding 30 [0xFF, 0xC0]) 30 t.rlen.toNat ∧
      ∀ k, k < t.rlen.toNat → some (memRead (holding 30 [0xFF, 0xC0]).ibuf ((30 : Int).toNat + k)) = t.readRbuf k :=
  ⟨_, rfl, by simp [RangeOk, holding, idle], rangeOk_idle.2.2, by decide⟩
theorem witness_EncWriteStreamsGroups :
    (pending (idle 32) [1, 2, 3, 4, 5, 6]).enc.count ≤ 6 ∧ RangeOk (pending (idle 32) [1, 2, 3, 4, 5, 6]) 32 0 ∧
      ¬ RangeOk (pending (idle 32) [1, 2, 3, 4, 5, 6]) 33 0 :=
  ⟨by decide, rangeOk_idle.1, not_rangeOk_idle.2.2⟩
theorem witness_EncFlushEmitsTail : (pending (idle 32) [1, 2, 3, 4, 5, 6]).enc.count ≤ 6 ∧ (idle 32).enc.count ≤ 6 := by
  decide
theorem witness_SecondFlushDoesNothing : ∃ t, exec .encFlush (pending (idle 32) [1]) = .next t := ⟨_, rfl⟩
theorem witness_FaultedWriteDoesNotPoison : ¬ RangeOk (idle 32) 33 0 := not_rangeOk_idle.2.2
theorem witness_ChunkingDoesNotMatter :
    (idle 32).enc.count ≤ 6 ∧
      (∀ c ∈ [Chunk.mk [(30, 1), (31, 2)] 30 2] ++ [⟨[(31, 1)], 31, 1⟩, ⟨[], 32, 0⟩, ⟨[(0, 2)], 0, 1⟩],
        RangeOk (idle 32) c.offset c.length) ∧
      [Chunk.mk [(30, 1), (31, 2)] 30 2].flatMap Chunk.bytes =
        [Chunk.mk [(31, 1)] 31 1, ⟨[], 32, 0⟩, ⟨[(0, 2)], 0, 1⟩].flatMap Chunk.bytes := by
  refine ⟨by decide, ?_, by decide⟩
  simp [RangeOk, idle]
theorem witness_StreamingMatchesBulk :
    (idle 32).enc.count = 0 ∧ ParamsOk (holding 30 [1, 2]).params ∧
      (holding 30 [1, 2]).params.alphabet = (idle 32).params.alphabet ∧
      (∀ c ∈ [Chunk.mk [(31, 1)] 31 1, ⟨[(0, 2)], 0, 1⟩], RangeOk (idle 32) c.offset c.length) ∧
      RangeOk (holding 30 [1, 2]) 30 2 ∧
      [Chunk.mk [(31, 1)] 31 1, ⟨[(0, 2)], 0, 1⟩].flatMap Chunk.bytes = (holding 30 [1, 2]).rangeBytes 30 2 :=
  ⟨rfl, params_idle, rfl, by simp [RangeOk, idle], rangeOk_idle.2.2, by decide⟩
theorem witness_MidStreamFlushSplits :
    (idle 32).enc.count = 0 ∧
      ∀ c ∈ [Chunk.mk [(31, 0x41)] 31 1] ++ [⟨[(0, 0x42)], 0, 1⟩], RangeOk (idle 32) c.offset c.length :=
  ⟨rfl, by simp [RangeOk, idle]⟩
theorem witness_EncoderCommandsFrame : ∃ t, exec (.encWrite 0 32) (idle 32) = .next t := ⟨_, rfl⟩
theorem witness_EncoderIgnoresDecoder : ∃ t, exec .encFlush (pending (reading 5 1 []) [1]) = .next t := ⟨_, rfl⟩
theorem witness_DecReadDeliversCount :
    ParamsOk (reading 7 1 [.byte 0xFF, .silent]).params ∧ [(0x7F : Sym)].length = need (1 : Int).toNat (7 : BitVec 3).toNat ∧
      (reading 7 1 [.byte 0xFF, .silent]).src = symbolSource testAlphabet [0x7F] ++ [.silent] :=
  ⟨params_idle, by decide, by decide⟩
theorem witness_DecReadShortRead :
    ParamsOk (reading 0 0 [.byte 0xFF, .short, .byte 1]).params ∧
      [(0x7F : Sym)].length < need (1 : Int).toNat (0 : BitVec 3).toNat ∧
      (reading 0 0 [.byte 0xFF, .short, .byte 1]).src = symbolSource testAlphabet [0x7F] ++ .short :: [.byte 1] ∧
      (reading 0 0 [.byte 0xFF]).src = symbolSource testAlphabet [0x7F] :=
  ⟨params_idle, by decide, by decide, by decide⟩
theorem witness_DecReadBadSymbol :
    ParamsOk (reading 0 0 [.byte 0xFF, .byte 0x7F]).params ∧
      [(0x7F : Sym)].length < need (1 : Int).toNat (0 : BitVec 3).toNat ∧
      (∀ v, fwd (reading 0 0 [.byte 0xFF, .byte 0x7F]).params.alphabet v ≠ 0x7F) ∧
      (reading 0 0 [.byte 0xFF, .byte 0x7F]).src = symbolSource testAlphabet [0x7F] ++ .byte 0x7F :: [] :=
  ⟨params_idle, by decide, not_in_testAlphabet, by decide⟩
theorem witness_DecReadUnansweredPull :
    ParamsOk (reading 0 0 [.byte 0xFF, .silent]).params ∧
      [(0x7F : Sym)].length < need (1 : Int).toNat (0 : BitVec 3).toNat ∧
      (reading 0 0 [.byte 0xFF, .silent]).src = symbolSource testAlphabet [0x7F] ++ .silent :: [] :=
  ⟨params_idle, by decide, by decide⟩
theorem witness_NegativeCountFaults : (-1 : Int) < 0 := by decide
theorem witness_DecAvailIsPureQuery : (0 : Int) ≤ 0 := by decide
theorem witness_DecAvailIsExact :
    ParamsOk (reading 0 0 [.byte 0xFF, .byte 0xC0]).params ∧ (Instr.decAvail 2).WellFormed ∧
      (2 : Int) ≤ ([0x7F, 0x40] : List Sym).length ∧
      (reading 0 0 [.byte 0xFF, .byte 0xC0]).src = symbolSource testAlphabet [0x7F, 0x40] ++ [] ∧
      ∃ t, exec (.decAvail 2) (reading 0 0 [.byte 0xFF, .byte 0xC0]) = .next t :=
  ⟨params_idle, by decide, by decide, by decide, _, rfl⟩
theorem witness_SplittingReadsDoesNotMatter :
    ParamsOk (reading 0 0 [.byte 0xFF, .byte 0xC0, .byte 0x80]).params ∧ (∀ n ∈ [(1 : Int), 0, 1], 0 ≤ n) ∧
      need ([1, 0, 1] : List Int).sum.toNat (0 : BitVec 3).toNat ≤ ([0x7F, 0x40, 0] : List Sym).length ∧
      (reading 0 0 [.byte 0xFF, .byte 0xC0, .byte 0x80]).src = symbolSource testAlphabet [0x7F, 0x40, 0] ++ [] :=
  ⟨params_idle, by decide, by decide, by decide⟩
theorem witness_StreamingRoundTrip :
    ∃ t u, (∀ c ∈ [Chunk.mk [(31, 0xFF)] 31 1], RangeOk (idle 32) c.offset c.length) ∧
      (∀ n ∈ [(0 : Int), 1], 0 ≤ n) ∧ writeChunks [⟨[(31, 0xFF)], 31, 1⟩] (idle 32) = .next t ∧
      exec .encFlush t = .next u ∧ u.sink = (idle 32).sink ++ [0xFF, 0xC0] ∧
      (reading 0 0 [.byte 0xFF, .byte 0xC0]).src = [(0xFF : Byte), 0xC0].map .byte ∧
      (reading 0 0 [.byte 0xFF, .byte 0xC0]).dec.remainder = 0 :=
  ⟨_, _, by simp [RangeOk, idle], by decide, rfl, rfl, by decide, rfl, rfl⟩
theorem witness_TruncatedStreamIsAPrefix :
    ParamsOk (reading 0 0 [.byte 0xFF]).params ∧ (reading 0 0 [.byte 0xFF]).dec.remainder = 0 ∧
      (reading 0 0 [.byte 0xFF]).src = ((encodeBytes testAlphabet [0xFF]).take 1).map .byte ∧
      (([0xFF] : List Byte).length : Int) ≤ 1 :=
  ⟨params_idle, rfl, by decide, by decide⟩
theorem witness_DecoderCommandsFrame :
    (∃ t, exec .decInit (idle 32) = .next t) ∧ (∃ t, exec (.decRead 1) (idle 32) = .next t) ∧
      ∃ t, exec (.decAvail 1) (idle 32) = .next t := ⟨⟨_, rfl⟩, ⟨_, rfl⟩, ⟨_, rfl⟩⟩
theorem witness_DecoderIgnoresEncoder : ∃ t, exec (.decRead 1) (pending (reading 1 1 [.byte 0x80]) [1]) = .next t :=
  ⟨_, rfl⟩
theorem witness_InstancesAreIndependent :
    System.sameRom [.running (handed (reading 0 0 [.silent]) 0x070000000000000001), .running (idle 32)] ∧
      Slot.step (.running (idle 32)) = .running (idle 32) := ⟨by simp [System.sameRom, Slot.state, handed, reading], rfl⟩
theorem witness_StrictRunEndsAtCorruptData :
    (handed (idle 32) 0x020000000000000001).host = .command 0x020000000000000001 :: [] ∧
      decode 0x020000000000000001 = .ok (.bulkDec 0 1) ∧
      strictStep (handed (idle 32) 0x020000000000000001) = .fault .corruptDataEndsRun ∧
      ∃ t, strictStep (handed (idle 32) 0x020000000000000000) = .next t :=
  ⟨rfl, by decide, rfl, _, rfl⟩

end Sys2Proof.Tests
end

/-! The port takes a command word, and the step runs the command it decodes to (00_scope.md R12). -/

namespace Sys2Proof.Proofs

open Sys2Proof.Machine

/-- A command word at the head of the host's moves is what the port takes. -/
theorem take_of_host_command {s : State} {w : CmdWord} {rest : List HostEvent} (hhost : s.host = .command w :: rest) :
    s.take = .word w (s.setHost rest) := by
  simp only [State.take, hhost]

/-- Settles O6: the port takes the word, and of a decodable word taken the step is `exec`, whatever its outcome. -/
theorem stepRunsDecodedCommand : Obligations.StepRunsDecodedCommand := by
  intro s w rest i hhost hdecode
  calc step s = exec i (s.setHost rest) := by simp only [step, take_of_host_command hhost, hdecode]
    _ = exec i { s with host := rest } := by rw [State.setHost]

end Sys2Proof.Proofs

/-! The invariant of 10_state.md: it holds after reset, and a step keeps it whatever the host's move. The half of it
that speaks of the stores is carried through each command by itself; the half that speaks of the response registers is
established once, by the one operation every command ends with. -/

namespace Sys2Proof.Proofs

open Sys2Proof.Machine Sys2Proof.Safety Sys2Proof.Laws

/-! ### The two halves of the invariant -/

/-- The half of `Safety.Inv` that does not speak of the response registers: what a command needs of the state it starts
in, and what it keeps before it responds. -/
structure StoresOk (s : State) : Prop where
  params : ParamsOk s.params
  pending : s.enc.count ≤ 6
  ibufWf : Memory.wf s.params.ibufSize s.ibuf = true
  resultFits : s.rbuf.written.length ≤ s.params.rbufSize

/-- Between commands the stores are in order. -/
theorem storesOk_of_inv {s : State} (h : Inv s) : StoresOk s :=
  ⟨h.params, h.pending, h.ibufWf, h.resultFits⟩

/-- The mask of the reserved bits of `STATUS`, 7:5, 11 and 31:15 (10_state.md R27), bit by bit. -/
theorem reservedMask_getLsbD : ∀ i : Fin 32,
    (0xFFFF88E0 : Word).getLsbD i.val = decide ((5 ≤ i.val ∧ i.val < 8) ∨ i.val = 11 ∨ 15 ≤ i.val) := by
  decide

/-- A `STATUS` put together from its fields has its reserved bits 0 (10_state.md R27). -/
theorem packStatus_and_reservedMask (fc sub : BitVec 2) (eod : Bool) (encCount decRem : BitVec 3) :
    packStatus fc sub eod encCount decRem &&& (0xFFFF88E0 : Word) = 0 := by
  refine BitVec.eq_of_getLsbD_eq fun i hi => ?_
  rw [BitVec.getLsbD_and, packStatus_getLsbD, reservedMask_getLsbD ⟨i, hi⟩]
  rcases Decidable.em ((5 ≤ i ∧ i < 8) ∨ i = 11 ∨ 15 ≤ i) with h | h
  · simp [show ¬ i < 2 by omega, show ¬ i < 4 by omega, show ¬ i = 4 by omega, show ¬ (8 ≤ i ∧ i < 11) by omega,
      show ¬ (12 ≤ i ∧ i < 15) by omega]
  · simp [h]

/-- A response establishes the other half of the invariant, when it answers no detail without a fault and an end of
data only without a fault and with a count of 0. -/
theorem inv_respondWith {s : State} (h : StoresOk s) {fc sub : BitVec 2} {eod : Bool} {rlen finfo : Word}
    (hfault : fc = 0 → sub = 0 ∧ finfo = 0) (heod : eod = true → fc = 0 ∧ rlen = 0) :
    Inv (s.respondWith fc sub eod rlen finfo) where
  params := h.params
  pending := h.pending
  ibufWf := h.ibufWf
  resultFits := h.resultFits
  encView := by simp
  decView := by simp
  reserved := packStatus_and_reservedMask ..
  noFault := by simpa using hfault
  endOfData := by simpa using heod

/-- Every fault has a class of its own, never 0 (60_exceptions.md R195). -/
theorem faultFC_ne_zero (f : CmdFault) : faultFC f ≠ 0 := by
  cases f <;> simp [faultFC]

/-- A command that ends with a fault (60_exceptions.md R196). -/
theorem inv_raise {s : State} (h : StoresOk s) (f : CmdFault) (rlen : Nat) : Inv (s.raise f rlen) :=
  inv_respondWith h (fun hfc => absurd hfc (faultFC_ne_zero f)) (by simp)

/-- A command that ends without a fault and not at the end of data. -/
theorem inv_respond {s : State} (h : StoresOk s) (rlen : Nat) : Inv (s.respond false rlen) :=
  inv_respondWith h (fun _ => ⟨rfl, rfl⟩) (by simp)

/-- A DEC_READ that ends without a fault: `EOD` comes with `RLEN` 0 (44_stream_decoder.md R165). -/
theorem inv_respond_eodOf {s : State} (h : StoresOk s) (count : Int) (emitted : Nat) :
    Inv (s.respond (eodOf count emitted) emitted) := by
  refine inv_respondWith h (fun _ => ⟨rfl, rfl⟩) fun heod => ⟨rfl, ?_⟩
  have hzero : emitted = 0 := by simp [eodOf] at heod; exact heod.2
  rw [hzero]; rfl

/-! ### What each command does to the stores -/

/-- New pending bytes, at most six. -/
theorem storesOk_setEnc {s : State} (h : StoresOk s) {buffer : List Byte} (hb : buffer.length ≤ 6) :
    StoresOk (s.setEnc buffer) :=
  ⟨h.params, hb, h.ibufWf, h.resultFits⟩

/-- A new result that fits `RBUF`. -/
theorem storesOk_setRbuf {s : State} (h : StoresOk s) {bytes : List Byte} (hb : bytes.length ≤ s.params.rbufSize) :
    StoresOk (s.setRbuf bytes) :=
  ⟨h.params, h.pending, h.ibufWf, hb⟩

/-- The decoder's registers and the streams are no part of it. -/
theorem storesOk_afterRead {s : State} (h : StoresOk s) (r : ReadRun) : StoresOk (s.afterRead r) :=
  ⟨h.params, h.pending, h.ibufWf, h.resultFits⟩

/-- Nor is what the encoder emitted. -/
theorem storesOk_emitSink {s : State} (h : StoresOk s) (bytes : List Byte) : StoresOk (s.emitSink bytes) :=
  ⟨h.params, h.pending, h.ibufWf, h.resultFits⟩

theorem storesOk_clearDec {s : State} (h : StoresOk s) : StoresOk s.clearDec :=
  ⟨h.params, h.pending, h.ibufWf, h.resultFits⟩

/-- A bulk command that faults leaves no result. -/
theorem inv_raiseBulk {s : State} (h : StoresOk s) (f : CmdFault) : Inv (s.raiseBulk f) :=
  inv_raise (storesOk_setRbuf h (Nat.zero_le _)) f 0

/-- A bulk command that delivers at most the encoding of a full `IBUF`. -/
theorem inv_deliver {s : State} (h : StoresOk s) {bytes : List Byte} (hb : bytes.length ≤ encLen s.params.ibufSize) :
    Inv (s.deliver bytes) :=
  inv_respond (storesOk_setRbuf h (hb.trans h.params.rbufBound)) _

/-- The encoding of a valid range fits `RBUF` (20_memory.md R53). -/
theorem inv_bulkEncNext {s : State} (h : StoresOk s) (offset length : Int) : Inv (bulkEncNext offset length s) := by
  rcases bulkEncNext_cases offset length s with ⟨⟨ho, hl, hsum⟩, he⟩ | ⟨cause, -, he⟩ <;> rw [he]
  · refine inv_deliver h ?_
    rw [encodeBytes_length, length_rangeBytes]
    exact encLen_mono (by omega)
  · exact inv_raiseBulk h _

/-- Decoding does not lengthen: `dec_len(m) <= m <= IBUF_SIZE <= enc_len(IBUF_SIZE)` for a valid range of `m` bytes
(20_memory.md R53). -/
theorem inv_bulkDecNext {s : State} (h : StoresOk s) (offset length : Int) : Inv (bulkDecNext offset length s) := by
  rcases bulkDecNext_cases offset length s with
    ⟨cause, -, he⟩ | ⟨⟨ho, hl, hsum⟩, ⟨-, he⟩ | ⟨-, ⟨x, -, he⟩ | ⟨vs, hvs, he⟩⟩⟩ <;> rw [he]
  · exact inv_raiseBulk h _
  · exact inv_raiseBulk h _
  · exact inv_raiseBulk h _
  · have hlen : vs.length = length.toNat := by
      simpa using congrArg List.length (map_fwd_of_invAll hvs)
    refine inv_deliver h ?_
    calc (unpackAll vs).length = decLen length.toNat := by rw [unpackAll_length, hlen]
      _ ≤ length.toNat := decLen_le _
      _ ≤ s.params.ibufSize := by omega
      _ ≤ encLen s.params.ibufSize := le_encLen _

/-- At most six bytes stay pending however many are written (10_state.md R22). -/
theorem inv_encWriteNext {s : State} (h : StoresOk s) (offset length : Int) : Inv (encWriteNext offset length s) := by
  rcases encWriteNext_cases offset length s with ⟨-, he⟩ | ⟨cause, -, he⟩ <;> rw [he]
  · have hpending := encPushAll_pending s.params.alphabet (s.rangeBytes offset length) h.pending
    exact inv_respond (storesOk_emitSink (storesOk_setEnc h hpending) _) _
  · exact inv_raise h _ _

/-- A DEC_READ that ends leaves the stores as they were. -/
theorem inv_of_execDecRead {s t : State} (h : StoresOk s) {count : Int} (he : execDecRead count s = .next t) :
    Inv t := by
  rcases execDecRead_cases count s with ⟨-, hr⟩ | ⟨-, ⟨-, hr⟩ | ⟨x, -, hr⟩ | ⟨-, hr⟩⟩ <;> rw [hr] at he <;> cases he
  · exact inv_raise h _ _
  · exact inv_raise (storesOk_afterRead h _) _ _
  · exact inv_respond_eodOf (storesOk_afterRead h _) _ _

theorem inv_decAvailNext {s : State} (h : StoresOk s) (p : Int) : Inv (decAvailNext p s) := by
  rcases decAvailNext_cases p s with ⟨-, he⟩ | ⟨-, he⟩ <;> rw [he]
  · exact inv_raise h _ _
  · exact inv_respond h _

/-- A command started with the stores in order ends in a state that meets the invariant, whatever the response
registers held before it (10_state.md R31). -/
theorem inv_of_exec {i : Instr} {s t : State} (h : StoresOk s) (he : exec i s = .next t) : Inv t := by
  cases i with
  | bulkEnc offset length => cases he; exact inv_bulkEncNext h offset length
  | bulkDec offset length => cases he; exact inv_bulkDecNext h offset length
  | encInit => cases he; exact inv_respond (storesOk_setEnc h (Nat.zero_le _)) _
  | encWrite offset length => cases he; exact inv_encWriteNext h offset length
  | encFlush => cases he; exact inv_respond (storesOk_emitSink (storesOk_setEnc h (Nat.zero_le _)) _) _
  | decInit => cases he; exact inv_respond (storesOk_clearDec h) _
  | decRead count => exact inv_of_execDecRead h he
  | decAvail p => cases he; exact inv_decAvailNext h p

/-! ### The host's other moves -/

/-- The streams and the host's moves are no part of the invariant. -/
theorem inv_withStreams {s : State} (h : Inv s) (src : List SrcAnswer) (sink dout : List Byte)
    (host : List HostEvent) : Inv { s with src := src, sink := sink, dout := dout, host := host } where
  params := h.params
  pending := h.pending
  ibufWf := h.ibufWf
  resultFits := h.resultFits
  encView := h.encView
  decView := h.decView
  reserved := h.reserved
  noFault := h.noFault
  endOfData := h.endOfData

/-- A store of the host inside `IBUF` keeps its canonical form (log entry 5). -/
theorem inv_memWriteList {s : State} (h : Inv s) {index : Nat} {bytes : List Byte}
    (hb : index + bytes.length ≤ s.params.ibufSize) : Inv { s with ibuf := memWriteList s.ibuf index bytes } where
  params := h.params
  pending := h.pending
  ibufWf := memWriteList_wf h.ibufWf bytes hb
  resultFits := h.resultFits
  encView := h.encView
  decView := h.decView
  reserved := h.reserved
  noFault := h.noFault
  endOfData := h.endOfData

/-- Registers at their reset values (10_state.md R36) meet the invariant, with any admissible parameters and any `IBUF`
in canonical form. -/
theorem inv_of_cleared {s : State} (hparams : ParamsOk s.params) (hibuf : Memory.wf s.params.ibufSize s.ibuf = true)
    (henc : s.enc = ⟨[]⟩) (hdec : s.dec.remainder = 0) (hrbuf : s.rbuf.written = []) (hstatus : s.status = 0)
    (hfinfo : s.finfo = 0) : Inv s where
  params := hparams
  pending := by simp [henc]
  ibufWf := hibuf
  resultFits := by simp [hrbuf]
  encView := by rw [hstatus, henc]; decide
  decView := by rw [hstatus, hdec]; decide
  reserved := by rw [hstatus]; decide
  noFault := fun _ => ⟨by rw [hstatus]; decide, hfinfo⟩
  endOfData := by rw [hstatus]; intro h; exact absurd h (by decide)

/-- A hardware reset keeps the parameters and `IBUF`, and clears the rest (70_reset_and_hazards.md R220, R221). -/
theorem inv_hardReset {s : State} (h : Inv s) : Inv s.hardReset :=
  inv_of_cleared h.params h.ibufWf rfl rfl rfl rfl rfl

/-- A hardware reset in the middle of a command: before it only the streams moved. -/
theorem inv_resetDuringWord {s : State} (h : Inv s) (w : CmdWord) (made : Nat) : Inv (resetDuringWord w made s) := by
  obtain ⟨n, out, emitted, hreset⟩ := resetDuringWord_eq s w made
  rw [hreset]
  exact inv_hardReset (inv_withStreams h (s.src.drop n) (s.sink ++ emitted) (s.dout ++ out) s.host)

/-- A step of any kind keeps the invariant: a command establishes it anew, every other move leaves what it speaks of in
order. -/
theorem inv_of_step {s t : State} (h : Inv s) (hstep : step s = .next t) : Inv t := by
  have htaken (rest : List HostEvent) : Inv (s.setHost rest) := inv_withStreams h s.src s.sink s.dout rest
  rcases step_cases hstep with ⟨-, rfl⟩ | ⟨w, rest, i, -, -, he⟩ | ⟨w, rest, op, -, -, rfl⟩ |
    ⟨index, bytes, rest, -, hb, rfl⟩ | ⟨answers, rest, -, rfl⟩ | ⟨answers, rest, -, rfl⟩ | ⟨rest, -, rfl⟩ |
    ⟨rest, -, rfl⟩ | ⟨rest, -, rfl⟩ | ⟨w, made, rest, -, rfl⟩
  · exact h
  · exact inv_of_exec (storesOk_of_inv (htaken rest)) he
  · exact inv_raise (storesOk_of_inv (htaken rest)) _ _
  · exact inv_memWriteList (htaken rest) hb
  · exact inv_withStreams h answers s.sink s.dout rest
  · exact inv_withStreams h (s.src ++ answers) s.sink s.dout rest
  · exact inv_withStreams h s.src [] s.dout rest
  · exact inv_withStreams h s.src s.sink [] rest
  · exact inv_hardReset (htaken rest)
  · exact inv_resetDuringWord (htaken rest) w made

/-- Settles O16: the step's cases, each of which keeps the invariant. -/
theorem stepKeepsInvariant : Obligations.StepKeepsInvariant :=
  fun _ _ h hstep => inv_of_step h hstep

/-! ### The state after reset -/

/-- The configured alphabet has pairwise distinct bytes, as the image of 0 to 127 under a permutation
(40_alphabet_rom.md R90; log entry 1). -/
theorem ofConfig_alphabet_nodup : Params.ofConfig.alphabet.toList.Nodup := by
  have hinj : Function.Injective fun i : Fin 128 => Config.bytePerm (BitVec.ofNat 8 i.val) := by
    intro i j hij
    have hval := congrArg BitVec.toNat (Config.bytePerm.injective hij)
    simp only [BitVec.toNat_ofNat] at hval
    omega
  rw [Params.ofConfig, Vector.toList_ofFn]
  exact List.nodup_ofFn.mpr hinj

/-- The configured parameters are admissible (00_scope.md R7; log entries 1 and 2). -/
theorem ofConfig_paramsOk : ParamsOk Params.ofConfig where
  distinct := ofConfig_alphabet_nodup
  ibufBound := Nat.le_sub_one_of_lt Config.ibufSize.isLt
  rbufBound := Nat.le_add_right _ _

/-- Settles O15: the reset state has every register cleared, `IBUF` empty and the configured parameters. -/
theorem resetMeetsInvariant : Obligations.ResetMeetsInvariant :=
  inv_of_cleared ofConfig_paramsOk rfl rfl rfl rfl rfl rfl

/-- Settles O12: each register is a literal of `State.reset`. -/
theorem resetStateRegisters : Obligations.ResetStateRegisters :=
  ⟨rfl, rfl, rfl, rfl, rfl⟩

end Sys2Proof.Proofs

/-! `STATUS` as a number, and what a command does not read: the response registers, and the other half of the block
(10_state.md R20, R27, R31). Every command ends with one response, so each independence claim rests on one lemma: how a
response treats the part of the state put in another's place. -/

namespace Sys2Proof.Proofs

open Sys2Proof.Machine Sys2Proof.Safety Sys2Proof.Laws

/-! ### The number `STATUS` is -/

/-- Of two fields side by side the upper one counts `2 ^ n` times. -/
theorem toNat_append_eq_add {m n : Nat} (x : BitVec m) (y : BitVec n) :
    (x ++ y).toNat = 2 ^ n * x.toNat + y.toNat := by
  rw [BitVec.toNat_append, ← Nat.shiftLeft_add_eq_or_of_lt y.isLt, Nat.shiftLeft_eq, Nat.mul_comm]

/-- Settles O19: the fields of `packStatus` counted one after another, the reserved ones 0. -/
theorem statusLayout : Obligations.StatusLayout := by
  intro fc sub eod encCount decRem
  simp only [packStatus, toNat_append_eq_add, BitVec.toNat_ofBool, BitVec.ofNat_eq_ofNat, BitVec.toNat_ofNat]
  omega

/-! ### The response registers are not read -/

/-- The state with other values in its response registers. -/
def withResponse (s : State) (x y z : Word) : State := { s with status := x, rlen := y, finfo := z }

section

variable (s : State) (x y z : Word)

@[simp] theorem withResponse_params : (withResponse s x y z).params = s.params := rfl
@[simp] theorem withResponse_rangeBytes (offset length : Int) :
    (withResponse s x y z).rangeBytes offset length = s.rangeBytes offset length := rfl
@[simp] theorem withResponse_readRun (count : Int) : (withResponse s x y z).readRun count = s.readRun count := rfl

/-- A response rewrites all three registers, whatever they held (10_state.md R31). -/
theorem respondWith_withResponse (fc sub : BitVec 2) (eod : Bool) (rlen finfo : Word) :
    (withResponse s x y z).respondWith fc sub eod rlen finfo = s.respondWith fc sub eod rlen finfo := rfl

theorem bulkEncNext_withResponse (offset length : Int) :
    bulkEncNext offset length (withResponse s x y z) = bulkEncNext offset length s := by
  simp only [bulkEncNext, withResponse_params, withResponse_rangeBytes]
  cases checkRange s.params.ibufSize offset length with
  | none => exact respondWith_withResponse (s.setRbuf _) x y z ..
  | some cause => exact respondWith_withResponse (s.setRbuf []) x y z ..

theorem bulkDecNext_withResponse (offset length : Int) :
    bulkDecNext offset length (withResponse s x y z) = bulkDecNext offset length s := by
  simp only [bulkDecNext, withResponse_params, withResponse_rangeBytes]
  cases checkRange s.params.ibufSize offset length with
  | some cause => exact respondWith_withResponse (s.setRbuf []) x y z ..
  | none =>
    by_cases htail : length.toNat % 8 = 1
    · simp only [if_pos htail]
      exact respondWith_withResponse (s.setRbuf []) x y z ..
    · simp only [if_neg htail]
      cases invAll s.params.alphabet (s.rangeBytes offset length) with
      | error b => exact respondWith_withResponse (s.setRbuf []) x y z ..
      | ok vs => exact respondWith_withResponse (s.setRbuf _) x y z ..

theorem encWriteNext_withResponse (offset length : Int) :
    encWriteNext offset length (withResponse s x y z) = encWriteNext offset length s := by
  simp only [encWriteNext, withResponse_params, withResponse_rangeBytes]
  cases checkRange s.params.ibufSize offset length with
  | none => exact respondWith_withResponse ((s.setEnc _).emitSink _) x y z ..
  | some cause => exact respondWith_withResponse s x y z ..

theorem finishRead_withResponse (count : Int) (r : ReadRun) :
    finishRead count (withResponse s x y z) r = finishRead count s r := by
  unfold finishRead
  cases r.stop with
  | silent => rfl
  | bad b => exact congrArg Host.Outcome.next (respondWith_withResponse (s.afterRead r) x y z ..)
  | complete => exact congrArg Host.Outcome.next (respondWith_withResponse (s.afterRead r) x y z ..)
  | short => exact congrArg Host.Outcome.next (respondWith_withResponse (s.afterRead r) x y z ..)

theorem execDecRead_withResponse (count : Int) :
    execDecRead count (withResponse s x y z) = execDecRead count s := by
  simp only [execDecRead, withResponse_readRun, finishRead_withResponse]
  cases checkCount count with
  | some cause => exact congrArg Host.Outcome.next (respondWith_withResponse s x y z ..)
  | none => rfl

theorem decAvailNext_withResponse (p : Int) : decAvailNext p (withResponse s x y z) = decAvailNext p s := by
  unfold decAvailNext
  cases checkCount p with
  | none => exact respondWith_withResponse s x y z ..
  | some cause => exact respondWith_withResponse s x y z ..

end

/-- Settles O20: no branch of a command looks at a response register, and the response it ends with rewrites all
three. -/
theorem responseRegistersAreNotRead : Obligations.ResponseRegistersAreNotRead := by
  intro i s x y z
  cases i with
  | bulkEnc offset length => exact congrArg Host.Outcome.next (bulkEncNext_withResponse s x y z offset length)
  | bulkDec offset length => exact congrArg Host.Outcome.next (bulkDecNext_withResponse s x y z offset length)
  | encInit => exact congrArg Host.Outcome.next (respondWith_withResponse (s.setEnc []) x y z ..)
  | encWrite offset length => exact congrArg Host.Outcome.next (encWriteNext_withResponse s x y z offset length)
  | encFlush => exact congrArg Host.Outcome.next (respondWith_withResponse ((s.setEnc []).emitSink _) x y z ..)
  | decInit => exact congrArg Host.Outcome.next (respondWith_withResponse s.clearDec x y z ..)
  | decRead count => exact execDecRead_withResponse s x y z count
  | decAvail p => exact congrArg Host.Outcome.next (decAvailNext_withResponse s x y z p)

/-! ### The encoder does not read the decoder -/

section

variable (s u : State)

/-- `s` with the decoder and the decoder's streams of `u`. -/
def withDecoderOf : State := { s with dec := u.dec, src := u.src, dout := u.dout }

/-- The same of a state that has responded: `STATUS.DEC_REM` is the view of the decoder put in place. -/
def withDecoderViewOf (t u : State) : State :=
  { withDecoderOf t u with
    status := packStatus (statusFC t.status) (statusSUB t.status) (statusEOD t.status) (statusEncCount t.status)
      u.dec.remainder }

@[simp] theorem withDecoderOf_params : (withDecoderOf s u).params = s.params := rfl
@[simp] theorem withDecoderOf_enc : (withDecoderOf s u).enc = s.enc := rfl
@[simp] theorem withDecoderOf_rangeBytes (offset length : Int) :
    (withDecoderOf s u).rangeBytes offset length = s.rangeBytes offset length := rfl

/-- A response takes of the decoder its view alone (10_state.md R27). -/
theorem respondWith_withDecoderOf (fc sub : BitVec 2) (eod : Bool) (rlen finfo : Word) :
    (withDecoderOf s u).respondWith fc sub eod rlen finfo =
      withDecoderViewOf (s.respondWith fc sub eod rlen finfo) u := by
  simp [withDecoderViewOf, withDecoderOf, State.respondWith]

theorem encWriteNext_withDecoderOf (offset length : Int) :
    encWriteNext offset length (withDecoderOf s u) = withDecoderViewOf (encWriteNext offset length s) u := by
  simp only [encWriteNext, withDecoderOf_params, withDecoderOf_enc, withDecoderOf_rangeBytes]
  cases checkRange s.params.ibufSize offset length with
  | none => exact respondWith_withDecoderOf ((s.setEnc _).emitSink _) u ..
  | some cause => exact respondWith_withDecoderOf s u ..

end

/-- Settles O44: an encoder command branches and computes on the parameters, the encoder and `IBUF` alone, and its
response takes the decoder's view. -/
theorem encoderIgnoresDecoder : Obligations.EncoderIgnoresDecoder := by
  rintro i s t u (rfl | rfl | ⟨offset, length, rfl⟩) hexec <;> cases hexec
  · exact congrArg Host.Outcome.next (respondWith_withDecoderOf (s.setEnc []) u ..)
  · exact congrArg Host.Outcome.next (respondWith_withDecoderOf ((s.setEnc []).emitSink _) u ..)
  · exact congrArg Host.Outcome.next (encWriteNext_withDecoderOf s u offset length)

/-! ### The decoder does not read the encoder or the memories -/

section

variable (s u : State)

/-- `s` with the encoder, both memories and the encoder's stream of `u`. -/
def withEncoderOf : State := { s with enc := u.enc, ibuf := u.ibuf, rbuf := u.rbuf, sink := u.sink }

/-- The same of a state that has responded: `STATUS.ENC_COUNT` is the view of the encoder put in place. -/
def withEncoderViewOf (t u : State) : State :=
  { withEncoderOf t u with
    status := packStatus (statusFC t.status) (statusSUB t.status) (statusEOD t.status)
      (BitVec.ofNat 3 u.enc.count) (statusDecRem t.status) }

/-- A response takes of the encoder its view alone (10_state.md R27). -/
theorem respondWith_withEncoderOf (fc sub : BitVec 2) (eod : Bool) (rlen finfo : Word) :
    (withEncoderOf s u).respondWith fc sub eod rlen finfo =
      withEncoderViewOf (s.respondWith fc sub eod rlen finfo) u := by
  simp [withEncoderViewOf, withEncoderOf, State.respondWith]

/-- A DEC_READ pulls the same symbols: they come from `SRC`, the decoder and the alphabet. -/
@[simp] theorem withEncoderOf_readRun (count : Int) : (withEncoderOf s u).readRun count = s.readRun count := rfl

theorem finishRead_withEncoderOf {s t : State} {count : Int} {r : ReadRun} (h : finishRead count s r = .next t) :
    finishRead count (withEncoderOf s u) r = .next (withEncoderViewOf t u) := by
  unfold finishRead at h ⊢
  cases hstop : r.stop <;> rw [hstop] at h <;> cases h
  case bad b => exact congrArg Host.Outcome.next (respondWith_withEncoderOf (s.afterRead r) u ..)
  case complete => exact congrArg Host.Outcome.next (respondWith_withEncoderOf (s.afterRead r) u ..)
  case short => exact congrArg Host.Outcome.next (respondWith_withEncoderOf (s.afterRead r) u ..)

theorem execDecRead_withEncoderOf {s t : State} {count : Int} (h : execDecRead count s = .next t) :
    execDecRead count (withEncoderOf s u) = .next (withEncoderViewOf t u) := by
  simp only [execDecRead, withEncoderOf_readRun] at h ⊢
  cases hcount : checkCount count with
  | some cause => rw [hcount] at h; cases h; exact congrArg Host.Outcome.next (respondWith_withEncoderOf s u ..)
  | none => rw [hcount] at h; exact finishRead_withEncoderOf u h

theorem decAvailNext_withEncoderOf (p : Int) :
    decAvailNext p (withEncoderOf s u) = withEncoderViewOf (decAvailNext p s) u := by
  unfold decAvailNext
  cases checkCount p with
  | none => exact respondWith_withEncoderOf s u ..
  | some cause => exact respondWith_withEncoderOf s u ..

end

/-- Settles O58: a decoder command branches and computes on the alphabet, the decoder, `SRC` and its operand alone, and
its response takes the encoder's view. -/
theorem decoderIgnoresEncoder : Obligations.DecoderIgnoresEncoder := by
  rintro i s t u (rfl | ⟨count, rfl⟩ | ⟨p, rfl⟩) hexec
  · cases hexec; exact congrArg Host.Outcome.next (respondWith_withEncoderOf s.clearDec u ..)
  · exact execDecRead_withEncoderOf u hexec
  · cases hexec; exact congrArg Host.Outcome.next (decAvailNext_withEncoderOf s u p)

end Sys2Proof.Proofs

/-! The command port and what the host does at it (20_memory.md R50, R51, R61, R63): a store into `IBUF` reaches its
range alone, commands handed over together run one after another, and no step writes the parameters, so both ROMs. -/

namespace Sys2Proof.Proofs

open Sys2Proof.Machine Sys2Proof.Safety Sys2Proof.Laws

/-! ### A store into `IBUF` -/

/-- What a read gives after a store of several bytes: byte `a - index` of them in their range, every other index as
before. -/
theorem memRead_memWriteList {size index : Nat} {m : Memory} (h : Memory.wf size m = true) (bytes : List Byte)
    (hb : index + bytes.length ≤ size) (a : Nat) :
    memRead (memWriteList m index bytes) a =
      if index ≤ a ∧ a < index + bytes.length then bytes.getD (a - index) 0 else memRead m a := by
  induction bytes generalizing index m with
  | nil => simp [memWriteList, show ¬ (index ≤ a ∧ a < index) by omega]
  | cons v vs ih =>
    rw [List.length_cons] at hb ⊢
    rw [memWriteList, ih (memWrite_wf h (by omega) v) (by omega), memRead_memWrite (lo := 0) h]
    rcases Nat.lt_trichotomy a index with hlt | rfl | hgt
    · simp [show ¬ index + 1 ≤ a by omega, show ¬ index ≤ a by omega, show a ≠ index by omega]
    · simp
    · have hplace : a - index = a - (index + 1) + 1 := by omega
      simp [hplace, show index + 1 ≤ a by omega, show index ≤ a by omega, show a ≠ index by omega,
        show (a < index + 1 + vs.length) = (a < index + (vs.length + 1)) by congr 1; omega]

/-- A store at the head of the host's moves is what the step does. -/
theorem step_of_host_storeIbuf {s : State} {index : Nat} {bytes : List Byte} {rest : List HostEvent}
    (hhost : s.host = .storeIbuf index bytes :: rest) : step s = storeIbuf index bytes (s.setHost rest) := by
  simp only [step, State.take, hhost]

/-- Settles O9: the store is byte by byte, each byte at its own index of a memory in canonical form. -/
theorem hostStoreReachesOnlyItsRange : Obligations.HostStoreReachesOnlyItsRange := by
  intro s rest index bytes hhost hwf
  rw [step_of_host_storeIbuf hhost]
  constructor
  · intro hinside
    exact ⟨memWriteList s.ibuf index bytes, if_pos hinside, memRead_memWriteList hwf bytes hinside⟩
  · intro houtside
    exact if_neg (Nat.not_le.mpr houtside)

/-! ### A command's word comes back from its encoding -/

/-- The fields of a word made of three (30_encoding.md R70). -/
@[simp] theorem opField_mkWord (op : Byte) (a b : Word) : opField (mkWord op a b) = op := by
  ext k hk
  rw [opField, mkWord, BitVec.getElem_extractLsb', BitVec.getLsbD_append, BitVec.getLsbD_append]
  simp [show ¬ 64 + k < 32 by omega, show ¬ 64 + k - 32 < 32 by omega, show 64 + k - 32 - 32 = k by omega,
    BitVec.getLsbD_eq_getElem hk]

@[simp] theorem aField_mkWord (op : Byte) (a b : Word) : aField (mkWord op a b) = a := by
  ext k hk
  rw [aField, mkWord, BitVec.getElem_extractLsb', BitVec.getLsbD_append, BitVec.getLsbD_append]
  simp [hk]

@[simp] theorem bField_mkWord (op : Byte) (a b : Word) : bField (mkWord op a b) = b := by
  ext k hk
  rw [bField, mkWord, BitVec.getElem_extractLsb', BitVec.getLsbD_append]
  simp [hk]

/-- An integer of the range of a signed 32-bit field is read back from it (30_encoding.md R72). -/
theorem signed32_fieldOf {x : Int} (hx : isSigned32 x = true) : signed32 (fieldOf x) = x := by
  simp only [isSigned32, Bool.and_eq_true, decide_eq_true_eq] at hx
  obtain ⟨hlow, hhigh⟩ := hx
  rw [signed32, fieldOf, BitVec.toInt_ofInt]
  exact Int.bmod_eq_of_le (by omega) (by omega)

/-- The word of a command that can be presented decodes to the command (30_encoding.md R70 to R73). -/
theorem decode_encode {i : Instr} (hi : i.WellFormed) : decode (encode i) = .ok i := by
  cases i with
  | bulkEnc offset length =>
    obtain ⟨ho, hl⟩ := Bool.and_eq_true_iff.mp hi
    simp [decode, encode, signed32_fieldOf ho, signed32_fieldOf hl]
  | bulkDec offset length =>
    obtain ⟨ho, hl⟩ := Bool.and_eq_true_iff.mp hi
    simp [decode, encode, signed32_fieldOf ho, signed32_fieldOf hl]
  | encInit => simp [decode, encode]
  | encWrite offset length =>
    obtain ⟨ho, hl⟩ := Bool.and_eq_true_iff.mp hi
    simp [decode, encode, signed32_fieldOf ho, signed32_fieldOf hl]
  | encFlush => simp [decode, encode]
  | decInit => simp [decode, encode]
  | decRead count => simp [decode, encode, signed32_fieldOf (x := count) hi]
  | decAvail p => simp [decode, encode, signed32_fieldOf (x := p) hi]

/-! ### A command neither reads nor writes the host's moves -/

/-- An outcome with other host's moves in its next state; a stop has no state. -/
def outcomeWithHost (events : List HostEvent) :
    Host.Outcome State Fault Refusal → Host.Outcome State Fault Refusal
  | .next t => .next (t.setHost events)
  | .fault f => .fault f
  | .refused r => .refused r

section

variable (s : State) (events : List HostEvent)

@[simp] theorem setHost_rangeBytes (offset length : Int) :
    (s.setHost events).rangeBytes offset length = s.rangeBytes offset length := rfl
@[simp] theorem setHost_readRun (count : Int) : (s.setHost events).readRun count = s.readRun count := rfl

theorem bulkEncNext_setHost (offset length : Int) :
    bulkEncNext offset length (s.setHost events) = (bulkEncNext offset length s).setHost events := by
  simp only [bulkEncNext, setHost_params, setHost_rangeBytes]
  cases checkRange s.params.ibufSize offset length with
  | none => rfl
  | some cause => rfl

theorem bulkDecNext_setHost (offset length : Int) :
    bulkDecNext offset length (s.setHost events) = (bulkDecNext offset length s).setHost events := by
  simp only [bulkDecNext, setHost_params, setHost_rangeBytes]
  cases checkRange s.params.ibufSize offset length with
  | some cause => rfl
  | none =>
    by_cases htail : length.toNat % 8 = 1
    · simp only [if_pos htail]; rfl
    · simp only [if_neg htail]
      cases invAll s.params.alphabet (s.rangeBytes offset length) with
      | error b => rfl
      | ok vs => rfl

theorem encWriteNext_setHost (offset length : Int) :
    encWriteNext offset length (s.setHost events) = (encWriteNext offset length s).setHost events := by
  simp only [encWriteNext, setHost_params, setHost_rangeBytes]
  cases checkRange s.params.ibufSize offset length with
  | none => rfl
  | some cause => rfl

theorem execDecRead_setHost (count : Int) :
    execDecRead count (s.setHost events) = outcomeWithHost events (execDecRead count s) := by
  simp only [execDecRead, setHost_readRun, finishRead]
  cases checkCount count with
  | some cause => rfl
  | none => cases (s.readRun count).stop <;> rfl

theorem decAvailNext_setHost (p : Int) :
    decAvailNext p (s.setHost events) = (decAvailNext p s).setHost events := by
  unfold decAvailNext
  cases checkCount p with
  | none => rfl
  | some cause => rfl

/-- Whatever the host is going to do, a command does the same and leaves those moves in place. -/
theorem exec_setHost (i : Instr) : exec i (s.setHost events) = outcomeWithHost events (exec i s) := by
  cases i with
  | bulkEnc offset length => exact congrArg Host.Outcome.next (bulkEncNext_setHost s events offset length)
  | bulkDec offset length => exact congrArg Host.Outcome.next (bulkDecNext_setHost s events offset length)
  | encInit => rfl
  | encWrite offset length => exact congrArg Host.Outcome.next (encWriteNext_setHost s events offset length)
  | encFlush => rfl
  | decInit => rfl
  | decRead count => exact execDecRead_setHost s events count
  | decAvail p => exact congrArg Host.Outcome.next (decAvailNext_setHost s events p)

end

/-- No command writes the host's moves: it runs as with its own moves put back. -/
theorem host_of_exec {i : Instr} {s t : State} (h : exec i s = .next t) : t.host = s.host := by
  have hback := exec_setHost s s.host i
  rw [show s.setHost s.host = s from rfl, h, outcomeWithHost] at hback
  calc t.host = (t.setHost s.host).host := congrArg State.host (Host.Outcome.next.inj hback)
    _ = s.host := rfl

/-! ### Commands handed to the port together -/

/-- The step on a state with commands issued runs the first, the others still at the port. -/
theorem step_issue_cons {i : Instr} (hi : i.WellFormed) (is : List Instr) (s : State) :
    step (s.issue (i :: is)) = exec i (s.issue is) :=
  stepRunsDecodedCommand _ _ (s.issue is).host i rfl (decode_encode hi)

/-- Commands still at the port stay there while another runs. -/
theorem exec_issue {i : Instr} {s t : State} (h : exec i s = .next t) (is : List Instr) :
    exec i (s.issue is) = .next (t.issue is) := by
  rw [State.issue, exec_setHost, h, State.issue, host_of_exec h]
  rfl

/-- Settles O14: by induction on the list, each step running its first command with the rest still at the port. -/
theorem issuedCommandsRunInOrder : Obligations.IssuedCommandsRunInOrder := by
  intro is s hwf
  induction is generalizing s with
  | nil => rfl
  | cons i is ih =>
    have hstep : Host.Core.step Sys2Proof.core (s.issue (i :: is)) = exec i (s.issue is) :=
      step_issue_cons (hwf i List.mem_cons_self) is s
    simp only [List.length_cons, Host.Core.run, hstep, execAll]
    cases hexec : exec i s with
    | next t =>
      rw [exec_issue hexec]
      exact ih t fun j hj => hwf j (List.mem_cons_of_mem i hj)
    | fault f => rw [State.issue, exec_setHost, hexec]; rfl
    | refused r => rw [State.issue, exec_setHost, hexec]; rfl

/-! ### The parameters, and with them both ROMs -/

/-- No command writes the parameters (10_state.md R35). -/
theorem params_of_exec {i : Instr} {s t : State} (h : exec i s = .next t) : t.params = s.params := by
  cases i with
  | bulkEnc offset length =>
    cases h
    rcases bulkEncNext_cases offset length s with ⟨-, he⟩ | ⟨cause, -, he⟩ <;> rw [he] <;> rfl
  | bulkDec offset length =>
    cases h
    rcases bulkDecNext_cases offset length s with
      ⟨cause, -, he⟩ | ⟨-, ⟨-, he⟩ | ⟨-, ⟨x, -, he⟩ | ⟨vs, -, he⟩⟩⟩ <;> rw [he] <;> rfl
  | encInit => cases h; rfl
  | encWrite offset length =>
    cases h
    rcases encWriteNext_cases offset length s with ⟨-, he⟩ | ⟨cause, -, he⟩ <;> rw [he] <;> rfl
  | encFlush => cases h; rfl
  | decInit => cases h; rfl
  | decRead count =>
    rw [exec] at h
    rcases execDecRead_cases count s with ⟨-, he⟩ | ⟨-, ⟨-, he⟩ | ⟨x, -, he⟩ | ⟨-, he⟩⟩ <;> rw [he] at h <;>
      cases h <;> rfl
  | decAvail p =>
    cases h
    rcases decAvailNext_cases p s with ⟨-, he⟩ | ⟨-, he⟩ <;> rw [he] <;> rfl

/-- No step writes the parameters, by a command, an illegal word, a reset or any other move of the host. -/
theorem params_of_step {s t : State} (h : step s = .next t) : t.params = s.params := by
  rcases step_cases h with ⟨-, rfl⟩ | ⟨w, rest, i, -, -, he⟩ | ⟨w, rest, op, -, -, rfl⟩ |
    ⟨index, bytes, rest, -, -, rfl⟩ | ⟨answers, rest, -, rfl⟩ | ⟨answers, rest, -, rfl⟩ | ⟨rest, -, rfl⟩ |
    ⟨rest, -, rfl⟩ | ⟨rest, -, rfl⟩ | ⟨w, made, rest, -, rfl⟩
  · rfl
  · exact params_of_exec (s := s.setHost rest) he
  · rfl
  · rfl
  · rfl
  · rfl
  · rfl
  · rfl
  · rfl
  · obtain ⟨n, out, emitted, hreset⟩ := resetDuringWord_eq (s.setHost rest) w made
    rw [hreset]
    rfl

/-- Settles O18: both lookups read the alphabet alone, which is a parameter. -/
theorem romLookupsNeverChange : Obligations.RomLookupsNeverChange := by
  intro s t hstep
  rw [params_of_step hstep]
  exact ⟨fun _ => rfl, fun _ => rfl⟩

end Sys2Proof.Proofs

/-! BULK_ENC re-cuts the bit string of its input (20_memory.md R57): the group value holds the raw bytes in order from
its top bit, and the symbols are its 7-bit pieces in order. -/

namespace Sys2Proof.Proofs

open Sys2Proof.Machine Sys2Proof.Safety Sys2Proof.Laws

/-! ### Bit strings -/

section

variable {w : Nat}

@[simp] theorem length_bitsMsb (x : BitVec w) : (bitsMsb x).length = w := by simp [bitsMsb]

/-- A bit of the string of one value; past its width there is none, and `getMsbD` reads 0 there. -/
theorem getD_bitsMsb (x : BitVec w) (k : Nat) : (bitsMsb x).getD k false = x.getMsbD k := by
  by_cases hk : k < w
  · simp [bitsMsb, hk]
  · simp [bitsMsb, hk, BitVec.getMsbD_of_ge x k (by omega)]

@[simp] theorem bitString_nil : bitString ([] : List (BitVec w)) = [] := rfl

@[simp] theorem bitString_cons (x : BitVec w) (xs : List (BitVec w)) :
    bitString (x :: xs) = bitsMsb x ++ bitString xs := rfl

@[simp] theorem bitString_append (xs ys : List (BitVec w)) : bitString (xs ++ ys) = bitString xs ++ bitString ys :=
  List.flatMap_append

@[simp] theorem length_bitString (xs : List (BitVec w)) : (bitString xs).length = w * xs.length := by
  induction xs with
  | nil => rfl
  | cons x xs ih => simp [ih, Nat.mul_succ, Nat.add_comm]

end

/-! ### One group -/

/-- The bits of a byte at byte place `i` of the group value (41_pack_primitives.md R104). -/
theorem getMsbD_placedByte (b : Byte) {i : Nat} (hi : i < 7) (k : Nat) :
    (b.setWidth 56 <<< (48 - 8 * i)).getMsbD k = (decide (8 * i ≤ k) && b.getMsbD (k - 8 * i)) := by
  rw [BitVec.getMsbD_shiftLeft, BitVec.getMsbD_setWidth]
  congr 2
  · rw [eq_iff_iff]; omega
  · omega

/-- The bits of bytes put in from byte place `i` on: theirs in order from bit `8 * i` from the top, 0 elsewhere. -/
theorem getMsbD_groupValueFrom {l : List Byte} {i : Nat} (hl : i + l.length ≤ 7) (k : Nat) :
    (groupValueFrom i l).getMsbD k = (decide (8 * i ≤ k) && (bitString l).getD (k - 8 * i) false) := by
  induction l generalizing i with
  | nil => simp [groupValueFrom]
  | cons b bs ih =>
    rw [List.length_cons] at hl
    rw [groupValueFrom, BitVec.getMsbD_or, getMsbD_placedByte b (by omega), ih (by omega), bitString_cons]
    rcases Nat.lt_or_ge k (8 * (i + 1)) with hlt | hge
    · rw [List.getD_append _ _ _ _ (by rw [length_bitsMsb]; omega), getD_bitsMsb]
      simp [show ¬ 8 * (i + 1) ≤ k by omega]
    · rw [List.getD_append_right _ _ _ _ (by rw [length_bitsMsb]; omega), length_bitsMsb,
        BitVec.getMsbD_of_ge b _ (by omega)]
      simp [hge, show 8 * i ≤ k by omega, show k - 8 * (i + 1) = k - 8 * i - 8 by omega]

/-- The group value is the bytes' bit string, filled up with 0 bits (41_pack_primitives.md R104). -/
theorem bitsMsb_groupValue {l : List Byte} (hl : l.length ≤ 7) :
    bitsMsb (groupValue l) = bitString l ++ List.replicate (56 - 8 * l.length) false := by
  refine List.ext_getElem (by simp; omega) fun k hk hk' => ?_
  have hbit := getMsbD_groupValueFrom (l := l) (i := 0) (by omega) k
  simp only [Nat.mul_zero, Nat.zero_le, decide_true, Bool.true_and, Nat.sub_zero] at hbit
  rw [← List.getD_eq_getElem _ false, ← List.getD_eq_getElem _ false, getD_bitsMsb, groupValue, hbit]
  rcases Nat.lt_or_ge k (bitString l).length with hin | hpast
  · rw [List.getD_append _ _ _ _ hin]
  · rw [List.getD_append_right _ _ _ _ hpast, List.getD_eq_default _ _ hpast, List.getD_eq_getElem?_getD,
      List.getElem?_getD_replicate_default_eq]

/-- A symbol is the 7 bits at its place (41_pack_primitives.md R105). -/
theorem bitsMsb_barrelExtract (B : Group) {j : Nat} (hj : j < 8) :
    bitsMsb (barrelExtract B j) = ((bitsMsb B).drop (7 * j)).take 7 := by
  refine List.ext_getElem (by simp; omega) fun k hk hk' => ?_
  rw [length_bitsMsb] at hk
  simp [bitsMsb, barrelExtract, BitVec.getMsbD_eq_getLsbD, hk, show 7 * j + k < 56 by omega,
    show 6 - k < 7 by omega, show 49 - 7 * j + (6 - k) = 55 - (7 * j + k) by omega]

/-- The first `n` symbols are the first `7 * n` bits. -/
theorem bitString_barrelExtract (B : Group) {n : Nat} (hn : n ≤ 8) :
    bitString ((List.range n).map (barrelExtract B)) = (bitsMsb B).take (7 * n) := by
  induction n with
  | zero => rfl
  | succ n ih =>
    rw [List.range_succ, List.map_append, bitString_append, ih (by omega), Nat.mul_succ, List.take_add,
      ← bitsMsb_barrelExtract B hn]
    simp

/-- The symbols of a group hold its bytes' bits, and 0 bits that fill the last one (41_pack_primitives.md R106). -/
theorem bitString_pack {l : List Byte} (hl : l.length ≤ 7) :
    bitString (pack l) = bitString l ++ List.replicate (7 * groupSymbols l.length - 8 * l.length) false := by
  have hfits : groupSymbols l.length ≤ 8 ∧ 8 * l.length ≤ 7 * groupSymbols l.length := by
    simp only [groupSymbols, pad]
    split <;> [skip; split] <;> omega
  rw [pack, bitString_barrelExtract _ hfits.1, bitsMsb_groupValue hl, List.take_append, List.take_of_length_le,
    List.take_replicate, length_bitString]
  · congr 2; omega
  · rw [length_bitString]; exact hfits.2

/-! ### A whole range -/

/-- One more full group is eight more symbols (41_pack_primitives.md R102). -/
theorem encLen_add_seven (n : Nat) : encLen (7 + n) = 8 + encLen n := by
  simp only [encLen, show (7 + n) / 7 = n / 7 + 1 by omega, show (7 + n) % 7 = n % 7 by omega]
  omega

/-- The symbols of a byte sequence hold its bits, and 0 bits that fill the last one (42_bulk_transcoder.md R120): by
its groups of seven, none of which leaves a bit over but the tail. -/
theorem bitString_packAll (raw : List Byte) :
    bitString (packAll raw) = bitString raw ++ List.replicate (7 * encLen raw.length - 8 * raw.length) false := by
  rcases Nat.lt_or_ge raw.length 7 with hshort | hfull
  · rw [packAll_short hshort]
    rcases Nat.eq_zero_or_pos raw.length with hzero | hpos
    · simp [List.length_eq_zero_iff.mp hzero, encLen, pad]
    · rw [if_pos hpos, bitString_pack (by omega)]
      have hgroup : groupSymbols raw.length = encLen raw.length := by
        simp [groupSymbols, encLen, Nat.div_eq_of_lt hshort, Nat.mod_eq_of_lt hshort, hshort.ne]
      rw [hgroup]
  · have hg : (raw.take 7).length = 7 := by simp [hfull]
    have ih := bitString_packAll (raw.drop 7)
    have hsymbols : groupSymbols (raw.take 7).length = 8 := by rw [hg]; rfl
    have hlen : raw.length = 7 + (raw.drop 7).length := by simp; omega
    calc bitString (packAll raw)
        = bitString (pack (raw.take 7)) ++ bitString (packAll (raw.drop 7)) := by
          rw [← bitString_append, ← packAll_group _ hg, List.take_append_drop]
      _ = bitString (raw.take 7) ++ (bitString (raw.drop 7) ++
            List.replicate (7 * encLen (raw.drop 7).length - 8 * (raw.drop 7).length) false) := by
          rw [bitString_pack hg.le, hsymbols, hg, ih, List.replicate_zero, List.append_nil]
      _ = bitString raw ++ List.replicate (7 * encLen raw.length - 8 * raw.length) false := by
          rw [← List.append_assoc, ← bitString_append, List.take_append_drop, hlen, encLen_add_seven]
          congr 2; omega
termination_by raw.length

/-! ### BULK_ENC -/

/-- On a range that meets the three constraints BULK_ENC delivers its encoding (42_bulk_transcoder.md R120). -/
theorem bulkEncNext_of_rangeOk {s : State} {offset length : Int} (h : RangeOk s offset length) :
    bulkEncNext offset length s = s.deliver (encodeBytes s.params.alphabet (s.rangeBytes offset length)) := by
  simp only [bulkEncNext, checkRange_eq_none.mpr h]

/-- The encoding of such a range has its length within `RBUF` and within 32 bits (20_memory.md R53,
41_pack_primitives.md R113). -/
theorem encLen_le_of_rangeOk {s : State} {offset length : Int} (hparams : ParamsOk s.params)
    (h : RangeOk s offset length) : encLen length.toNat ≤ s.params.rbufSize ∧ encLen length.toNat < 2 ^ 32 := by
  obtain ⟨hoffset, hlength, hsum⟩ := h
  have hbound := hparams.ibufBound
  exact ⟨(encLen_mono (by omega)).trans hparams.rbufBound, encLen_lt (by omega)⟩

/-- Settles O28: BULK_ENC delivers the symbols of the range, whose bit string is that of its bytes. -/
theorem bulkEncKeepsTheBitString : Obligations.BulkEncKeepsTheBitString := by
  intro s offset length hparams hrange
  obtain ⟨hfits, hword⟩ := encLen_le_of_rangeOk hparams hrange
  refine ⟨_, packAll (s.rangeBytes offset length), congrArg Host.Outcome.next (bulkEncNext_of_rangeOk hrange),
    ?_, ?_, ?_⟩
  · simpa [packAll_length] using (Nat.mod_eq_of_lt hword).symm
  · intro k v hv
    have hk : k < encLen length.toNat := by
      simpa [packAll_length] using (List.getElem?_eq_some_iff.mp hv).1
    simp [State.readRbuf, encodeBytes, hv, hk.trans_le hfits]
  · rw [bitString_packAll, packAll_length, length_rangeBytes]

end Sys2Proof.Proofs

/-! The command word (30_encoding.md R70 to R77): `decode` and `encode` agree on the `OP` and the fields a command
uses, `decode` looks at nothing else, and an `OP` outside the map is answered with IllegalCommand. -/

namespace Sys2Proof.Proofs

open Sys2Proof.Machine Sys2Proof.Laws

/-- Settles O1: the three fields of the word are read back as written, and an operand in range as itself. -/
theorem decodeEncodeRoundTrip : Obligations.DecodeEncodeRoundTrip :=
  fun _ => decode_encode

/-! ### What a word decodes to -/

/-- A field read as two's complement is in the range of a signed 32-bit integer (30_encoding.md R72). -/
theorem isSigned32_signed32 (x : Word) : isSigned32 (signed32 x) = true := by
  have hlow : -2 ^ 31 ≤ signed32 x := BitVec.le_toInt x
  have hhigh : signed32 x < 2 ^ 31 := BitVec.toInt_lt
  simp only [isSigned32, Bool.and_eq_true, decide_eq_true_eq]
  omega

/-- The integer of a field is written back as that field (30_encoding.md R72). -/
theorem fieldOf_signed32 (x : Word) : fieldOf (signed32 x) = x := BitVec.ofInt_toInt

/-- What a word that decodes to a command says of it: its `OP` is the command's (30_encoding.md R73), the operands fit
their fields (R72), and the command's own word has the fields it uses as they are and 0 in the others (R75). -/
theorem decode_ok_inv {w : CmdWord} {i : Instr} (h : decode w = .ok i) :
    opField w = opcode i ∧ i.WellFormed ∧
      encode i = mkWord (opcode i) (if usesA i then aField w else 0) (if usesB i then bField w else 0) := by
  unfold decode at h
  split at h
  case h_9 => cases h
  all_goals
    next hop =>
    cases h
    refine ⟨BitVec.eq_of_toNat_eq hop, ?_, ?_⟩
    · simp [Instr.WellFormed, Instr.wellFormed, isSigned32_signed32]
    · simp [encode, opcode, usesA, usesB, fieldOf_signed32]

/-- Settles O2: the three fields of the command's own word. -/
theorem decodedCommandReencodes : Obligations.DecodedCommandReencodes := by
  intro w i h
  obtain ⟨hop, hwf, hencode⟩ := decode_ok_inv h
  rw [hencode, opField_mkWord, aField_mkWord, bField_mkWord]
  exact ⟨hwf, hop.symm, rfl, rfl⟩

/-- Settles O3: what `decode` answers for an `OP` of format N or Z does not name the unused fields. -/
theorem unusedFieldsIgnored : Obligations.UnusedFieldsIgnored := by
  intro op a a' b b'
  constructor
  · rintro (rfl | rfl) <;> simp [decode]
  · rintro (rfl | rfl | rfl) <;> simp [decode]

/-! ### Legal and illegal words -/

/-- The opcodes of the commands are 1 to 8 (30_encoding.md R73). -/
theorem opcode_toNat_bounds (i : Instr) : 1 ≤ (opcode i).toNat ∧ (opcode i).toNat ≤ 8 := by
  cases i <;> simp [opcode]

/-- A word that is rejected is rejected with its own `OP` (30_encoding.md R74). -/
theorem eq_unassignedOp_of_decode {w : CmdWord} {e : DecodeError} (h : decode w = .error e) :
    e = .unassignedOp (opField w) := by
  unfold decode at h
  split at h
  case h_9 => exact (Except.error.inj h).symm
  all_goals cases h

/-- An `OP` is illegal when it is not 1 to 8 (30_encoding.md R74). -/
theorem illegalOp_iff (op : Byte) : (op = 0 ∨ 9 ≤ op.toNat) ↔ ¬ (1 ≤ op.toNat ∧ op.toNat ≤ 8) := by
  have hzero : op = 0 ↔ op.toNat = 0 := BitVec.toNat_inj.symm
  rw [hzero]
  omega

/-- A word decodes to a command when its `OP` is 1 to 8 (30_encoding.md R73, R76). -/
theorem exists_decode_ok_iff (w : CmdWord) :
    (∃ i, decode w = .ok i) ↔ 1 ≤ (opField w).toNat ∧ (opField w).toNat ≤ 8 := by
  constructor
  · rintro ⟨i, hi⟩
    obtain ⟨hop, -, -⟩ := decode_ok_inv hi
    exact hop ▸ opcode_toNat_bounds i
  · rintro ⟨hlow, hhigh⟩
    unfold decode
    generalize (opField w).toNat = op at *
    interval_cases op <;> exact ⟨_, rfl⟩

/-- A word is rejected when no command is its decoding, and then with its own `OP` (30_encoding.md R74, R76). -/
theorem decode_eq_unassignedOp_iff (w : CmdWord) :
    decode w = .error (.unassignedOp (opField w)) ↔ opField w = 0 ∨ 9 ≤ (opField w).toNat := by
  rw [illegalOp_iff, ← exists_decode_ok_iff]
  cases hd : decode w with
  | ok i => simp
  | error e => simp [eq_unassignedOp_of_decode hd]

/-- Settles O4: the two kinds of `OP`. -/
theorem everyWordCommandOrIllegal : Obligations.EveryWordCommandOrIllegal :=
  fun w => ⟨exists_decode_ok_iff w, decode_eq_unassignedOp_iff w⟩

/-- Settles O5: `decode` evaluated on the written-out words. -/
theorem sampleWordsDecode : Obligations.SampleWordsDecode := by
  unfold Obligations.SampleWordsDecode
  decide

/-- Settles O7: the port takes the word, its `OP` is rejected, and the fault's codes are those of IllegalCommand. -/
theorem illegalWordRaisesOnly : Obligations.IllegalWordRaisesOnly := by
  intro s w rest hhost hop
  have hreject : step s = .next (rejectWord (.unassignedOp (opField w)) (s.setHost rest)) := by
    simp only [step, take_of_host_command hhost, (decode_eq_unassignedOp_iff w).mpr hop]
  rw [hreject, rejectWord, raise_eq]
  rfl

/-! ### The response registers -/

/-- Settles O13: a number from 3 on meets the last case of `State.readResponse`. -/
theorem responseRegisterNumbers : Obligations.ResponseRegisterNumbers := by
  refine fun s => ⟨rfl, rfl, rfl, fun n hn => ?_⟩
  obtain ⟨k, rfl⟩ := Nat.exists_eq_add_of_le' hn
  rfl

end Sys2Proof.Proofs

/-! The two alphabet tables (40_alphabet_rom.md R94): each takes the other back, and the bytes with an inverse are
exactly the bytes of the forward table. -/

namespace Sys2Proof.Proofs

open Sys2Proof.Machine Sys2Proof.Laws

/-- A byte has an inverse exactly when the forward table holds it (40_alphabet_rom.md R92, R93). -/
theorem isSome_inv_iff_mem {a : Alphabet} {b : Byte} : (inv a b).isSome ↔ b ∈ a.toList := by
  rw [inv, Option.isSome_map, ← Option.ne_none_iff_isSome, ne_eq, List.idxOf?_eq_none_iff, not_not]

/-- The count of R94 is a count of the table's own bytes: neither list repeats a value, and they have the same members. -/
theorem invertible_perm_alphabet {a : Alphabet} (ha : a.toList.Nodup) :
    ((List.range 256).filter fun n => (inv a (BitVec.ofNat 8 n)).isSome).Perm (a.toList.map BitVec.toNat) := by
  have hbytes : (a.toList.map BitVec.toNat).Nodup := ha.map fun _ _ => BitVec.eq_of_toNat_eq
  refine (List.perm_ext_iff_of_nodup (List.nodup_range.filter _) hbytes).mpr fun n => ?_
  rw [List.mem_filter, List.mem_range, isSome_inv_iff_mem, List.mem_map]
  constructor
  · rintro ⟨hn, hmem⟩
    exact ⟨BitVec.ofNat 8 n, hmem, (BitVec.toNat_ofNat n 8).trans (Nat.mod_eq_of_lt hn)⟩
  · rintro ⟨b, hmem, rfl⟩
    exact ⟨b.isLt, by rwa [BitVec.ofNat_toNat, BitVec.setWidth_eq]⟩

/-- Settles O23: both tables read at one place, and the count is the length of the forward table. -/
theorem alphabetRoundTrip : Obligations.AlphabetRoundTrip := by
  refine fun a ha => ⟨inv_fwd ha, fun _ _ => fwd_of_inv, ?_⟩
  rw [(invertible_perm_alphabet ha).length_eq, List.length_map, Vector.length_toList]

end Sys2Proof.Proofs

/-! The packing primitives (41_pack_primitives.md R100 to R112): the length tables as bit counts, the sizing functions
of the decoder through them, and what a tail's last symbol gives to its bytes. -/

namespace Sys2Proof.Proofs

open Sys2Proof.Machine Sys2Proof.Laws

/-! ### Lengths -/

/-- Leftover bytes take the symbols that their bits fill, the last one in part (41_pack_primitives.md R100). -/
theorem pad_eq_div {r : Nat} (hr : r < 7) : pad r = (8 * r + 6) / 7 := by
  rw [pad]
  split <;> omega

/-- Leftover symbols carry the bytes that their bits fill (41_pack_primitives.md R101). -/
theorem unpad_eq_div {s : Nat} (hs : s < 8) : unpad s = 7 * s / 8 := by
  rw [unpad]
  split <;> omega

@[simp] theorem encLen_zero : encLen 0 = 0 := rfl

@[simp] theorem decLen_zero : decLen 0 = 0 := rfl

theorem encLen_eq_div (n : Nat) : encLen n = (8 * n + 6) / 7 := by
  rw [encLen, pad_eq_div (Nat.mod_lt n (by decide))]
  omega

theorem decLen_eq_div (m : Nat) : decLen m = 7 * m / 8 := by
  rw [decLen, unpad_eq_div (Nat.mod_lt m (by decide))]
  omega

/-- Both sides say that the bits of `n` bytes fit in `m` symbols, `8 * n ≤ 7 * m`. -/
theorem encLen_le_iff_le_decLen (n m : Nat) : encLen n ≤ m ↔ n ≤ decLen m := by
  rw [encLen_eq_div, decLen_eq_div]
  omega

theorem decLen_encLen (n : Nat) : decLen (encLen n) = n := by
  rw [encLen_eq_div, decLen_eq_div]
  omega

theorem encLen_mod_eight_ne_one (n : Nat) : encLen n % 8 ≠ 1 := by
  rw [encLen_eq_div]
  omega

/-- Settles O24: the closed form and what follows from it. -/
theorem lengthLaws : Obligations.LengthLaws :=
  fun n => ⟨encLen_eq_div n, decLen_encLen n, encLen_mod_eight_ne_one n⟩

/-! ### Sizing the decoder's reads -/

/-- The bytes owed cost one symbol each, those from the group boundary on as many as encode them (R111). -/
theorem need_eq (k c : Nat) : need k c = min (leftover c) k + encLen (k - leftover c) := by
  rw [need, encLen, show k - min (leftover c) k = k - leftover c by omega, Nat.add_assoc]

/-- The symbols up to the group boundary give one byte each, those after it what they decode to (R112). -/
theorem avail_eq (p c : Nat) : avail p c = min (leftover c) p + decLen (p - leftover c) := by
  rw [avail]
  split
  · next hp => simp [Nat.min_eq_right hp, Nat.sub_eq_zero_of_le hp]
  · next hp => rw [Nat.min_eq_left (by omega), decLen, Nat.add_assoc]

/-- Settles O25: past the group boundary it is the adjunction of `encLen` and `decLen`, before it both are the count. -/
theorem needAndAvailAreAdjoint : Obligations.NeedAndAvailAreAdjoint := by
  intro p k c _
  rw [avail_eq, avail_eq, need_eq]
  have hadj := encLen_le_iff_le_decLen (k - leftover c) (p - leftover c)
  have hdec := decLen_le (p - leftover c)
  have henc := le_encLen (k - leftover c)
  refine ⟨by omega, ?_⟩
  rcases Nat.le_total k (leftover c) with hk | hk
  · simp [Nat.min_eq_right hk, Nat.sub_eq_zero_of_le hk]
  · rw [Nat.min_eq_left hk, Nat.min_eq_left (by omega), Nat.add_sub_cancel_left, decLen_encLen]
    omega

/-! ### The last symbol of a tail -/

theorem symbolValueFrom_concat (i : Nat) (vs : List Sym) (v : Sym) :
    symbolValueFrom i (vs ++ [v]) = symbolValueFrom i vs ||| (v.setWidth 56 <<< (49 - 7 * (i + vs.length))) := by
  induction vs generalizing i with
  | nil => simp [symbolValueFrom, BitVec.or_comm]
  | cons u us ih =>
    rw [List.cons_append, symbolValueFrom, symbolValueFrom, ih, BitVec.or_assoc, List.length_cons,
      Nat.add_assoc, Nat.add_comm 1]

theorem groupByte_or (B C : Group) (i : Nat) : groupByte (B ||| C) i = groupByte B i ||| groupByte C i := by
  simp [groupByte, BitVec.ushiftRight_or_distrib]

/-- Byte `i` ends `8 * (i + 1)` bits from the top, so of the symbol at place `n > i`, which begins `7 * n` bits from
there, it holds at most the top `n` bits (41_pack_primitives.md R107). -/
theorem groupByte_placedSymbol_congr {v v' : Sym} {n i : Nat} (hn : n ≤ 6) (hi : i < n)
    (h : v >>> (7 - n) = v' >>> (7 - n)) :
    groupByte (v.setWidth 56 <<< (49 - 7 * n)) i = groupByte (v'.setWidth 56 <<< (49 - 7 * n)) i := by
  have hbit : ∀ j, 7 - n ≤ j → v.getLsbD j = v'.getLsbD j := fun j hj => by
    have := congrArg (fun x => x.getLsbD (j - (7 - n))) h
    simpa [Nat.add_sub_cancel' hj] using this
  refine BitVec.eq_of_getLsbD_eq fun k hk => ?_
  simp only [groupByte, BitVec.getLsbD_setWidth, BitVec.getLsbD_ushiftRight, BitVec.getLsbD_shiftLeft]
  rw [hbit _ (by omega)]

/-- Settles O26: `s` symbols give `s - 1` bytes, and none of them holds a padding bit of the last symbol. -/
theorem paddingBitsAreIgnored : Obligations.PaddingBitsAreIgnored := by
  intro vs v v' hpos hle h
  have hcount : groupBytes (vs.length + 1) = vs.length := by
    rw [groupBytes, if_neg (by omega), unpad, if_neg (by omega), Nat.add_sub_cancel]
  simp only [unpack, List.length_append, List.length_singleton, hcount]
  refine List.map_congr_left fun i hi => ?_
  simp only [symbolValueFrom_concat, groupByte_or, Nat.zero_add]
  rw [groupByte_placedSymbol_congr hle (List.mem_range.mp hi) h]

end Sys2Proof.Proofs

/-! The packed stream by place and as a bit string, both ways (20_memory.md R57): where a symbol of `packAll` and a byte
of `unpackAll` comes from, and that unpacking re-cuts the bit string which packing filled up. -/

namespace Sys2Proof.Proofs

open Sys2Proof.Machine Sys2Proof.Safety Sys2Proof.Laws

/-! ### The symbols of a range by place -/

/-- A sequence of at least a group is packed group first. -/
theorem packAll_of_seven_le {l : List Byte} (hl : 7 ≤ l.length) :
    packAll l = pack (l.take 7) ++ packAll (l.drop 7) := by
  rw [← packAll_group _ (by simp [hl]), List.take_append_drop]

/-- Behind the symbols of the first `g` groups come those of the bytes behind these groups. -/
theorem drop_packAll {l : List Byte} {g : Nat} (hg : 7 * g ≤ l.length) :
    (packAll l).drop (8 * g) = packAll (l.drop (7 * g)) := by
  induction g generalizing l with
  | zero => rfl
  | succ g ih =>
    have hhead : (pack (l.take 7)).length = 8 := by
      rw [pack_length, List.length_take, Nat.min_eq_left (by omega)]; rfl
    rw [packAll_of_seven_le (by omega), Nat.mul_succ, Nat.add_comm, ← List.drop_drop, List.drop_left' hhead,
      ih (by rw [List.length_drop]; omega), List.drop_drop, Nat.mul_succ, Nat.add_comm 7]

theorem getElem?_pack {l : List Byte} {j : Nat} (hj : j < groupSymbols l.length) :
    (pack l)[j]? = some (barrelExtract (groupValue l) j) := by
  simp [pack, hj]

/-- Symbol `j` of full group `g` (42_bulk_transcoder.md R120). -/
theorem getElem?_packAll_full {l : List Byte} {g j : Nat} (hg : g < l.length / 7) (hj : j < 8) :
    (packAll l)[8 * g + j]? = some (barrelExtract (groupValue ((l.drop (7 * g)).take 7)) j) := by
  have hgroup : ((l.drop (7 * g)).take 7).length = 7 := by simp; omega
  have hplace : j < (pack ((l.drop (7 * g)).take 7)).length := by rw [pack_length, hgroup]; exact hj
  rw [← List.getElem?_drop, drop_packAll (by omega), packAll_of_seven_le (by rw [List.length_drop]; omega),
    List.getElem?_append_left hplace, getElem?_pack (by rw [hgroup]; exact hj)]

/-- Symbol `j` of the tail (42_bulk_transcoder.md R120). -/
theorem getElem?_packAll_tail {l : List Byte} {j : Nat} (hj : j < pad (l.length % 7)) :
    (packAll l)[8 * (l.length / 7) + j]? = some (barrelExtract (groupValue (l.drop (7 * (l.length / 7)))) j) := by
  have htail : (l.drop (7 * (l.length / 7))).length = l.length % 7 := by rw [List.length_drop]; omega
  have hpos : 0 < l.length % 7 := Nat.pos_of_ne_zero fun h => by simp [h, pad] at hj
  rw [← List.getElem?_drop, drop_packAll (by omega), packAll_short (by omega), if_pos (by omega),
    getElem?_pack (by rw [htail, groupSymbols, if_neg (by omega)]; exact hj)]

/-! ### The bytes of a symbol sequence by place -/

/-- The bytes of a full group come first, then those of the rest. -/
theorem unpackAll_of_eight_le {vs : List Sym} (hvs : 8 ≤ vs.length) :
    unpackAll vs = unpack (vs.take 8) ++ unpackAll (vs.drop 8) := by
  have hq : vs.length / 8 = (vs.drop 8).length / 8 + 1 := by rw [List.length_drop]; omega
  have hr : vs.length % 8 = (vs.drop 8).length % 8 := by rw [List.length_drop]; omega
  have hrest (g : Nat) : vs.drop (8 * (g + 1)) = (vs.drop 8).drop (8 * g) := by
    rw [List.drop_drop, Nat.mul_succ, Nat.add_comm]
  simp only [unpackAll, hq, hr, List.range_succ_eq_map, List.flatMap_cons, List.flatMap_map, Nat.mul_zero,
    List.drop_zero, Nat.succ_eq_add_one, hrest, List.append_assoc]

/-- A sequence shorter than a group is its own tail. -/
theorem unpackAll_short {vs : List Sym} (hvs : vs.length < 8) :
    unpackAll vs = if vs.length ≥ 2 then unpack vs else [] := by
  simp [unpackAll, Nat.div_eq_of_lt hvs, Nat.mod_eq_of_lt hvs]

/-- Behind the bytes of the first `g` groups come those of the symbols behind these groups. -/
theorem drop_unpackAll {vs : List Sym} {g : Nat} (hg : 8 * g ≤ vs.length) :
    (unpackAll vs).drop (7 * g) = unpackAll (vs.drop (8 * g)) := by
  induction g generalizing vs with
  | zero => rfl
  | succ g ih =>
    have hhead : (unpack (vs.take 8)).length = 7 := by
      rw [unpack_length, List.length_take, Nat.min_eq_left (by omega)]; rfl
    rw [unpackAll_of_eight_le (by omega), Nat.mul_succ, Nat.add_comm, ← List.drop_drop, List.drop_left' hhead,
      ih (by rw [List.length_drop]; omega), List.drop_drop, Nat.mul_succ, Nat.add_comm 8]

theorem getElem?_unpack {vs : List Sym} {i : Nat} (hi : i < groupBytes vs.length) :
    (unpack vs)[i]? = some (groupByte (symbolValueFrom 0 vs) i) := by
  simp [unpack, hi]

/-- Byte `i` of full group `g` (42_bulk_transcoder.md R121). -/
theorem getElem?_unpackAll_full {vs : List Sym} {g i : Nat} (hg : g < vs.length / 8) (hi : i < 7) :
    (unpackAll vs)[7 * g + i]? = some (groupByte (symbolValueFrom 0 ((vs.drop (8 * g)).take 8)) i) := by
  have hgroup : ((vs.drop (8 * g)).take 8).length = 8 := by simp; omega
  have hplace : i < (unpack ((vs.drop (8 * g)).take 8)).length := by rw [unpack_length, hgroup]; exact hi
  rw [← List.getElem?_drop, drop_unpackAll (by omega), unpackAll_of_eight_le (by rw [List.length_drop]; omega),
    List.getElem?_append_left hplace, getElem?_unpack (by rw [hgroup]; exact hi)]

/-- Byte `i` of the tail (42_bulk_transcoder.md R121). -/
theorem getElem?_unpackAll_tail {vs : List Sym} {i : Nat} (hi : i < unpad (vs.length % 8)) :
    (unpackAll vs)[7 * (vs.length / 8) + i]? =
      some (groupByte (symbolValueFrom 0 (vs.drop (8 * (vs.length / 8)))) i) := by
  have htail : (vs.drop (8 * (vs.length / 8))).length = vs.length % 8 := by rw [List.length_drop]; omega
  have hpos : 2 ≤ vs.length % 8 := Nat.lt_of_not_le fun h => by simp [unpad, h] at hi
  rw [← List.getElem?_drop, drop_unpackAll (by omega), unpackAll_short (by omega), if_pos (by omega),
    getElem?_unpack (by rw [htail, groupBytes, if_neg (by omega)]; exact hi)]

/-! ### The bit string of the bytes -/

/-- Values of one positive width with one bit string are the same values. -/
theorem bitString_injective {w : Nat} (hw : 0 < w) :
    Function.Injective (bitString : List (BitVec w) → List Bool) := by
  intro xs ys h
  induction xs generalizing ys with
  | nil =>
    have hlen : 0 = w * ys.length := by simpa using congrArg List.length h
    exact (List.length_eq_zero_iff.mp (by simpa [hw.ne'] using hlen.symm)).symm
  | cons x xs ih =>
    cases ys with
    | nil => simpa [hw.ne'] using congrArg List.length h
    | cons y ys =>
      obtain ⟨hhead, htail⟩ := List.append_inj h (by simp)
      have hbit (k : Nat) : x.getMsbD k = y.getMsbD k := by rw [← getD_bitsMsb, hhead, getD_bitsMsb]
      rw [BitVec.eq_of_getMsbD_eq fun k _ => hbit k, ih htail]

/-- The bits of a symbol at symbol place `i` of the group value (41_pack_primitives.md R107). -/
theorem getMsbD_placedSymbol (v : Sym) {i : Nat} (hi : i < 8) (k : Nat) :
    (v.setWidth 56 <<< (49 - 7 * i)).getMsbD k = (decide (7 * i ≤ k) && v.getMsbD (k - 7 * i)) := by
  rw [BitVec.getMsbD_shiftLeft, BitVec.getMsbD_setWidth]
  congr 2
  · rw [eq_iff_iff]; omega
  · omega

/-- The bits of symbols put in from symbol place `i` on: theirs in order from bit `7 * i` from the top, 0 elsewhere. -/
theorem getMsbD_symbolValueFrom {vs : List Sym} {i : Nat} (hvs : i + vs.length ≤ 8) (k : Nat) :
    (symbolValueFrom i vs).getMsbD k = (decide (7 * i ≤ k) && (bitString vs).getD (k - 7 * i) false) := by
  induction vs generalizing i with
  | nil => simp [symbolValueFrom]
  | cons v vs ih =>
    rw [List.length_cons] at hvs
    rw [symbolValueFrom, BitVec.getMsbD_or, getMsbD_placedSymbol v (by omega), ih (by omega), bitString_cons]
    rcases Nat.lt_or_ge k (7 * (i + 1)) with hlt | hge
    · rw [List.getD_append _ _ _ _ (by rw [length_bitsMsb]; omega), getD_bitsMsb]
      simp [show ¬ 7 * (i + 1) ≤ k by omega]
    · rw [List.getD_append_right _ _ _ _ (by rw [length_bitsMsb]; omega), length_bitsMsb,
        BitVec.getMsbD_of_ge v _ (by omega)]
      simp [hge, show 7 * i ≤ k by omega, show k - 7 * (i + 1) = k - 7 * i - 7 by omega]

/-- A byte of the group value is the 8 bits at its place (41_pack_primitives.md R107). -/
theorem bitsMsb_groupByte (B : Group) {i : Nat} (hi : i < 7) :
    bitsMsb (groupByte B i) = ((bitsMsb B).drop (8 * i)).take 8 := by
  refine List.ext_getElem (by simp; omega) fun k hk hk' => ?_
  rw [length_bitsMsb] at hk
  simp [bitsMsb, groupByte, BitVec.getMsbD_eq_getLsbD, hk, show 8 * i + k < 56 by omega,
    show 7 - k < 8 by omega, show 48 - 8 * i + (7 - k) = 55 - (8 * i + k) by omega]

/-- The first `n` bytes of the group value are its first `8 * n` bits. -/
theorem bitString_groupByte (B : Group) {n : Nat} (hn : n ≤ 7) :
    bitString ((List.range n).map (groupByte B)) = (bitsMsb B).take (8 * n) := by
  induction n with
  | zero => rfl
  | succ n ih =>
    rw [List.range_succ, List.map_append, bitString_append, ih (by omega), Nat.mul_succ, List.take_add,
      ← bitsMsb_groupByte B hn]
    simp

/-- The bytes of a group are the first bits of its symbols; the others are dropped (41_pack_primitives.md R107). -/
theorem bitString_unpack {vs : List Sym} (hvs : vs.length ≤ 8) :
    bitString (unpack vs) = (bitString vs).take (8 * groupBytes vs.length) := by
  have hfits : groupBytes vs.length ≤ 7 ∧ 8 * groupBytes vs.length ≤ 7 * vs.length := by
    simp only [groupBytes, unpad]
    split <;> [skip; split] <;> omega
  rw [unpack, bitString_groupByte _ hfits.1]
  refine List.ext_getElem (by simp; omega) fun k hk hk' => ?_
  have hbit := getMsbD_symbolValueFrom (vs := vs) (i := 0) (by omega) k
  simp only [Nat.mul_zero, Nat.zero_le, decide_true, Bool.true_and, Nat.sub_zero] at hbit
  rw [List.getElem_take, List.getElem_take, ← List.getD_eq_getElem _ false, ← List.getD_eq_getElem _ false,
    getD_bitsMsb, hbit]

/-- One more full group is seven more bytes (41_pack_primitives.md R103). -/
theorem decLen_eight_add (m : Nat) : decLen (8 + m) = 7 + decLen m := by
  rw [decLen_eq_div, decLen_eq_div]
  omega

/-- The bytes of a symbol sequence are its first bits (42_bulk_transcoder.md R121): by its groups of eight, none of
which drops a bit but the tail. -/
theorem bitString_unpackAll (vs : List Sym) :
    bitString (unpackAll vs) = (bitString vs).take (8 * decLen vs.length) := by
  rcases Nat.lt_or_ge vs.length 8 with hshort | hfull
  · rw [unpackAll_short hshort, decLen, Nat.div_eq_of_lt hshort, Nat.mod_eq_of_lt hshort]
    split
    · rw [bitString_unpack hshort.le, groupBytes, if_neg hshort.ne]
      congr 1; omega
    · next hone => simp [unpad, show vs.length ≤ 1 by omega]
  · have hgroup : (vs.take 8).length = 8 := by simp [hfull]
    have ih := bitString_unpackAll (vs.drop 8)
    have hbits : (bitString (vs.take 8)).length = 56 := by rw [length_bitString, hgroup]
    have hlen : vs.length = 8 + (vs.drop 8).length := by rw [List.length_drop]; omega
    calc bitString (unpackAll vs)
        = bitString (vs.take 8) ++ (bitString (vs.drop 8)).take (8 * decLen (vs.drop 8).length) := by
          rw [unpackAll_of_eight_le hfull, bitString_append, ih, bitString_unpack hgroup.le, hgroup,
            List.take_of_length_le (i := 8 * groupBytes 8) hbits.le]
      _ = (bitString (vs.take 8) ++ bitString (vs.drop 8)).take (56 + 8 * decLen (vs.drop 8).length) := by
          rw [← hbits, List.take_length_add_append]
      _ = (bitString vs).take (8 * decLen vs.length) := by
          rw [← bitString_append, List.take_append_drop, hlen, decLen_eight_add, Nat.mul_add]
termination_by vs.length

/-- Unpacking takes packing back: it cuts off the bits that packing filled up (42_bulk_transcoder.md R128). -/
theorem unpackAll_packAll (raw : List Byte) : unpackAll (packAll raw) = raw := by
  refine bitString_injective (by decide) ?_
  rw [bitString_unpackAll, packAll_length, decLen_encLen, bitString_packAll, List.take_left' (length_bitString raw)]

end Sys2Proof.Proofs

/-! The bulk transcoder (42_bulk_transcoder.md R120 to R129): after the range check a bulk command ends with one
function of the alphabet and the bytes of the range, a result or a fault, and each law of the two commands is a law of
that ending. -/

namespace Sys2Proof.Proofs

open Sys2Proof.Machine Sys2Proof.Safety Sys2Proof.Laws

/-! ### How a bulk command ends -/

/-- What a bulk command makes of the bytes of a valid range. -/
abbrev Transcode := Alphabet → List Byte → Except CmdFault (List Byte)

/-- BULK_ENC's: every byte sequence has an encoding (42_bulk_transcoder.md R120). -/
def encodeRange : Transcode := fun a raw => .ok (encodeBytes a raw)

/-- BULK_DEC's, with the order of its faults (42_bulk_transcoder.md R121, 60_exceptions.md R198). -/
def decodeRange : Transcode := fun a bytes =>
  if bytes.length % 8 = 1 then .error (.badTail bytes.length)
  else
    match invAll a bytes with
    | .error x => .error (.badSymbol x)
    | .ok vs => .ok (unpackAll vs)

/-- The result or the fault of a bulk command: the range check first (20_memory.md R64). -/
def bulkOutcome (transcode : Transcode) (offset length : Int) (s : State) : Except CmdFault (List Byte) :=
  match checkRange s.params.ibufSize offset length with
  | some cause => .error (.invalidRange cause)
  | none => transcode s.params.alphabet (s.rangeBytes offset length)

/-- The state after it. -/
def finishBulk (s : State) : Except CmdFault (List Byte) → State
  | .ok bytes => s.deliver bytes
  | .error f => s.raiseBulk f

theorem exec_bulkEnc (offset length : Int) (s : State) :
    exec (.bulkEnc offset length) s = .next (finishBulk s (bulkOutcome encodeRange offset length s)) := by
  refine congrArg Host.Outcome.next ?_
  unfold bulkEncNext bulkOutcome
  cases checkRange s.params.ibufSize offset length with
  | none => rfl
  | some cause => rfl

theorem exec_bulkDec (offset length : Int) (s : State) :
    exec (.bulkDec offset length) s = .next (finishBulk s (bulkOutcome decodeRange offset length s)) := by
  refine congrArg Host.Outcome.next ?_
  unfold bulkDecNext bulkOutcome decodeRange
  cases checkRange s.params.ibufSize offset length with
  | some cause => rfl
  | none =>
    by_cases htail : length.toNat % 8 = 1
    · simp [htail, finishBulk]
    · cases invAll s.params.alphabet (s.rangeBytes offset length) <;> simp [htail, finishBulk]

section

variable (transcode : Transcode) {s : State} {offset length : Int}

theorem bulkOutcome_of_rangeOk (h : RangeOk s offset length) :
    bulkOutcome transcode offset length s = transcode s.params.alphabet (s.rangeBytes offset length) := by
  simp only [bulkOutcome, checkRange_eq_none.mpr h]

/-- On a range that violates a constraint a bulk command raises InvalidRange, with the first one violated as sub-cause
(20_memory.md R64, 60_exceptions.md R195, R197). -/
theorem finishBulk_of_not_rangeOk (h : ¬ RangeOk s offset length) :
    (finishBulk s (bulkOutcome transcode offset length s)).status =
        packStatus 1 (if offset < 0 then 0 else if length < 0 then 1 else 2) false
          (BitVec.ofNat 3 s.enc.count) s.dec.remainder ∧
      (finishBulk s (bulkOutcome transcode offset length s)).rlen = 0 ∧
      (finishBulk s (bulkOutcome transcode offset length s)).finfo = 0 := by
  obtain ⟨cause, hcause, hsub⟩ := checkRange_eq_some h
  simp [bulkOutcome, hcause, finishBulk, hsub, faultFC, faultInfo]

end

/-! ### What a bulk command leaves alone -/

/-- Nothing but `RBUF` and the response registers has changed, as the statements about bulk commands write it out. -/
def BulkFrame (s t : State) : Prop :=
  t.params = s.params ∧ t.enc = s.enc ∧ t.dec = s.dec ∧ (∀ a, memRead t.ibuf a = memRead s.ibuf a) ∧
    t.src = s.src ∧ t.sink = s.sink ∧ t.dout = s.dout ∧ t.host = s.host

theorem bulkFrame_finishBulk (s : State) (outcome : Except CmdFault (List Byte)) :
    BulkFrame s (finishBulk s outcome) := by
  cases outcome with
  | ok bytes => exact ⟨rfl, rfl, rfl, fun _ => rfl, rfl, rfl, rfl, rfl⟩
  | error f => exact ⟨rfl, rfl, rfl, fun _ => rfl, rfl, rfl, rfl, rfl⟩

/-! ### The bytes of a range and of the result -/

theorem drop_map_range {α : Type} (f : Nat → α) (k n : Nat) :
    ((List.range n).map f).drop k = (List.range (n - k)).map fun j => f (k + j) := by
  refine List.ext_getElem (by simp) fun i hi hi' => ?_
  simp

theorem take_memRange (m : Memory) (offset length k : Nat) :
    (memRange m offset length).take k = memRange m offset (min k length) := by
  rw [memRange, ← List.map_take, List.take_range, memRange]

theorem drop_rangeBytes (s : State) (offset length : Int) (k : Nat) :
    (s.rangeBytes offset length).drop k = memRange s.ibuf (offset.toNat + k) (length.toNat - k) := by
  simp only [State.rangeBytes, memRange, drop_map_range, Nat.add_assoc]

theorem getElem?_rangeBytes (s : State) (offset : Int) {length : Int} {k : Nat} (hk : k < length.toNat) :
    (s.rangeBytes offset length)[k]? = some (memRead s.ibuf (offset.toNat + k)) := by
  rw [State.rangeBytes, getElem?_memRange, if_pos hk]

/-- A byte of the delivered result, read at its place in `RBUF` (20_memory.md R53). -/
theorem readRbuf_deliver {s : State} {bytes : List Byte} (hfits : bytes.length ≤ s.params.rbufSize) {k : Nat} {x : Byte}
    (hx : bytes[k]? = some x) : (s.deliver bytes).readRbuf k = some x := by
  have hk : k < bytes.length := (List.getElem?_eq_some_iff.mp hx).1
  simp [State.readRbuf, hx, hk.trans_le hfits]

/-- A valid range has at most `IBUF_SIZE` bytes, so its encoding fits `RBUF` (20_memory.md R53). -/
theorem encodeBytes_rangeBytes_fits {s : State} {offset length : Int} (hparams : ParamsOk s.params)
    (h : RangeOk s offset length) (a : Alphabet) :
    (encodeBytes a (s.rangeBytes offset length)).length ≤ s.params.rbufSize := by
  rw [encodeBytes_length, length_rangeBytes]
  exact (encLen_le_of_rangeOk hparams h).1

/-- The count of a response is a 32-bit word (10_state.md R28). -/
theorem rlen_deliver {s : State} {bytes : List Byte} (hword : bytes.length < 2 ^ 32) :
    (s.deliver bytes).rlen.toNat = bytes.length :=
  (BitVec.toNat_ofNat _ _).trans (Nat.mod_eq_of_lt hword)

/-- `RLEN` of BULK_ENC, which 32 bits hold (41_pack_primitives.md R113, 42_bulk_transcoder.md R120). -/
theorem rlen_deliver_encodeBytes {s : State} {offset length : Int} (hparams : ParamsOk s.params)
    (h : RangeOk s offset length) (a : Alphabet) :
    (s.deliver (encodeBytes a (s.rangeBytes offset length))).rlen.toNat = encLen length.toNat := by
  have hlen : (encodeBytes a (s.rangeBytes offset length)).length = encLen length.toNat := by
    rw [encodeBytes_length, length_rangeBytes]
  exact (rlen_deliver (by rw [hlen]; exact (encLen_le_of_rangeOk hparams h).2)).trans hlen

/-! ### BULK_ENC -/

/-- Settles O27: the encoding of the range, its symbols by place, or the fault of the range check. -/
theorem bulkEncDeliversSymbols : Obligations.BulkEncDeliversSymbols := by
  intro s offset length hparams
  refine ⟨_, exec_bulkEnc offset length s, bulkFrame_finishBulk s _, ?_⟩
  by_cases hrange : RangeOk s offset length
  · rw [bulkOutcome_of_rangeOk _ hrange]
    have hsymbol {k : Nat} {v : Sym} (hv : (packAll (s.rangeBytes offset length))[k]? = some v) :
        (finishBulk s (encodeRange s.params.alphabet (s.rangeBytes offset length))).readRbuf k =
          some (fwd s.params.alphabet v) :=
      readRbuf_deliver (encodeBytes_rangeBytes_fits hparams hrange _) (by simp [encodeBytes, hv])
    refine ⟨rfl, fun _ => ⟨rfl, rlen_deliver_encodeBytes hparams hrange _, fun g j hg hj => hsymbol ?_,
      fun j hj => hsymbol ?_⟩, (absurd hrange ·)⟩
    · rw [getElem?_packAll_full (by rwa [length_rangeBytes]) hj, drop_rangeBytes, take_memRange,
        Nat.min_eq_left (by omega)]
    · have htail := getElem?_packAll_tail (l := s.rangeBytes offset length) (by rwa [length_rangeBytes])
      rwa [length_rangeBytes, drop_rangeBytes,
        show length.toNat - 7 * (length.toNat / 7) = length.toNat % 7 by omega] at htail
  · obtain ⟨hstatus, hrlen, hfinfo⟩ := finishBulk_of_not_rangeOk encodeRange hrange
    exact ⟨hfinfo, (absurd · hrange), fun _ => ⟨hstatus, hrlen⟩⟩

/-! ### BULK_DEC -/

/-- Symbol bytes whose number is not 1 modulo 8 decode (42_bulk_transcoder.md R121). -/
theorem decodeRange_map_fwd {a : Alphabet} (ha : a.toList.Nodup) {vs : List Sym} (hlen : vs.length % 8 ≠ 1) :
    decodeRange a (vs.map (fwd a)) = .ok (unpackAll vs) := by
  simp [decodeRange, hlen, invAll_map_fwd ha]

theorem decodeRange_badTail (a : Alphabet) {bytes : List Byte} (hlen : bytes.length % 8 = 1) :
    decodeRange a bytes = .error (.badTail bytes.length) := by
  simp [decodeRange, hlen]

theorem decodeRange_badSymbol {a : Alphabet} {good rest : List Byte} {x : Byte}
    (hlen : (good ++ x :: rest).length % 8 ≠ 1) (hgood : ∀ b ∈ good, ∃ v, fwd a v = b) (hx : ∀ v, fwd a v ≠ x) :
    decodeRange a (good ++ x :: rest) = .error (.badSymbol x) := by
  rw [decodeRange, if_neg hlen, invAll_bad hgood hx]

/-- What BULK_DEC delivers is no longer than what it read (41_pack_primitives.md R103). -/
theorem length_le_of_decodeRange {a : Alphabet} {bytes out : List Byte} (h : decodeRange a bytes = .ok out) :
    out.length ≤ bytes.length := by
  unfold decodeRange at h
  split at h
  · cases h
  · cases hvs : invAll a bytes with
    | error x => rw [hvs] at h; cases h
    | ok vs =>
      rw [hvs] at h
      cases h
      rw [unpackAll_length, ← map_fwd_of_invAll hvs, List.length_map]
      exact decLen_le _

/-- Settles O29: the range is the symbol bytes of the given values, which unpack by place. -/
theorem bulkDecDeliversBytes : Obligations.BulkDecDeliversBytes := by
  intro s offset length vs hparams hrange hlen hsymbols
  have hbytes : s.rangeBytes offset length = ((List.range length.toNat).map vs).map (fwd s.params.alphabet) := by
    rw [List.map_map]
    exact List.map_congr_left fun j hj => hsymbols j (List.mem_range.mp hj)
  have hout : bulkOutcome decodeRange offset length s = .ok (unpackAll ((List.range length.toNat).map vs)) := by
    rw [bulkOutcome_of_rangeOk _ hrange, hbytes, decodeRange_map_fwd hparams.distinct (by simpa using hlen)]
  have hcount : (unpackAll ((List.range length.toNat).map vs)).length = decLen length.toNat := by
    simp [unpackAll_length]
  have hle := (decLen_le length.toNat).trans (le_encLen _)
  obtain ⟨hfits, hword⟩ := encLen_le_of_rangeOk hparams hrange
  refine ⟨_, exec_bulkDec offset length s, bulkFrame_finishBulk s _, ?_⟩
  rw [hout]
  have hbyte {k : Nat} {x : Byte} (hx : (unpackAll ((List.range length.toNat).map vs))[k]? = some x) :
      (s.deliver (unpackAll ((List.range length.toNat).map vs))).readRbuf k = some x :=
    readRbuf_deliver (by omega) hx
  refine ⟨rfl, (rlen_deliver (by omega)).trans hcount, rfl, fun g i hg hi => hbyte ?_, fun i hi => hbyte ?_⟩
  · rw [getElem?_unpackAll_full (by simpa using hg) hi, drop_map_range, ← List.map_take, List.take_range,
      Nat.min_eq_left (by omega)]
  · have htail := getElem?_unpackAll_tail (vs := (List.range length.toNat).map vs) (by simpa using hi)
    rwa [List.length_map, List.length_range, drop_map_range,
      show length.toNat - 8 * (length.toNat / 8) = length.toNat % 8 by omega] at htail

/-- Settles O30: the three faults, each from what decides it. -/
theorem bulkDecFaults : Obligations.BulkDecFaults := by
  intro s offset length
  refine ⟨_, exec_bulkDec offset length s, bulkFrame_finishBulk s _, finishBulk_of_not_rangeOk decodeRange, ?_, ?_⟩
  · intro hrange hlen
    rw [bulkOutcome_of_rangeOk _ hrange, decodeRange_badTail _ (by rwa [length_rangeBytes]), length_rangeBytes]
    obtain ⟨-, hlength, -⟩ := hrange
    refine ⟨rfl, rfl, ?_⟩
    calc BitVec.ofNat 32 length.toNat = BitVec.ofInt 32 length.toNat := (BitVec.ofInt_natCast _ _).symm
      _ = BitVec.ofInt 32 length := by rw [Int.toNat_of_nonneg hlength]
  · intro k hrange hlen hk hbad hgood
    have hsplit : s.rangeBytes offset length = (s.rangeBytes offset length).take k ++
        memRead s.ibuf (offset.toNat + k) :: (s.rangeBytes offset length).drop (k + 1) := by
      have hat := getElem?_rangeBytes s offset hk
      obtain ⟨hlt, hget⟩ := List.getElem?_eq_some_iff.mp hat
      rw [← hget, ← List.drop_eq_getElem_cons, List.take_append_drop]
    have hbefore : ∀ b ∈ (s.rangeBytes offset length).take k, ∃ v, fwd s.params.alphabet v = b := by
      intro b hb
      rw [State.rangeBytes, take_memRange, Nat.min_eq_left hk.le, memRange, List.mem_map] at hb
      obtain ⟨j, hj, rfl⟩ := hb
      exact hgood j (List.mem_range.mp hj)
    have hout : decodeRange s.params.alphabet (s.rangeBytes offset length) =
        .error (.badSymbol (memRead s.ibuf (offset.toNat + k))) := by
      rw [hsplit]
      exact decodeRange_badSymbol (by rwa [← hsplit, length_rangeBytes]) hbefore hbad
    rw [bulkOutcome_of_rangeOk _ hrange, hout]
    exact ⟨rfl, rfl, rfl⟩

/-! ### Both commands alike -/

/-- A bulk command is `finishBulk` of its outcome, and a fault that comes from the bytes of the range is CorruptData
(60_exceptions.md R192). -/
theorem exec_bulk {i : Instr} {offset length : Int} (h : i = .bulkEnc offset length ∨ i = .bulkDec offset length) :
    ∃ transcode : Transcode, (∀ s, exec i s = .next (finishBulk s (bulkOutcome transcode offset length s))) ∧
      ∀ a bytes f, transcode a bytes = .error f → faultFC f = 2 := by
  rcases h with rfl | rfl
  · exact ⟨encodeRange, exec_bulkEnc offset length, nofun⟩
  · refine ⟨decodeRange, exec_bulkDec offset length, fun a bytes f hf => ?_⟩
    unfold decodeRange at hf
    split at hf
    · cases hf; rfl
    · split at hf <;> cases hf; rfl

/-- Settles O31: an invalid range raises InvalidRange, a valid one gives a result or CorruptData. -/
theorem bulkValidationLaw : Obligations.BulkValidationLaw := by
  intro s offset length i hi
  obtain ⟨transcode, hexec, hcorrupt⟩ := exec_bulk hi
  refine ⟨_, hexec s, ?_⟩
  have hiff : (offset < 0 ∨ length < 0 ∨ s.params.ibufSize < offset + length) ↔ ¬ RangeOk s offset length := by
    unfold RangeOk; omega
  rw [hiff]
  by_cases hrange : RangeOk s offset length
  · have hfc : statusFC (finishBulk s (bulkOutcome transcode offset length s)).status ≠ 1 := by
      rw [bulkOutcome_of_rangeOk _ hrange]
      cases hout : transcode s.params.alphabet (s.rangeBytes offset length) with
      | ok bytes => simp [finishBulk]
      | error f => simp [finishBulk, hcorrupt _ _ _ hout]
    exact ⟨iff_of_false hfc (not_not_intro hrange), (absurd · hfc)⟩
  · obtain ⟨hstatus, hrlen, hfinfo⟩ := finishBulk_of_not_rangeOk transcode hrange
    exact ⟨iff_of_true (by rw [hstatus, statusFC_packStatus]) hrange, fun _ => ⟨hrlen, hfinfo⟩⟩

section

variable (s u : State)

/-- `s` with the streaming state of `u`: both halves' registers and all three streams. -/
def withStreamingOf : State := { s with enc := u.enc, dec := u.dec, src := u.src, sink := u.sink, dout := u.dout }

/-- The same of a state that has responded: the views of `STATUS` are those of the state put in place. -/
def withStreamingViewOf (t u : State) : State :=
  { withStreamingOf t u with
    status := packStatus (statusFC t.status) (statusSUB t.status) (statusEOD t.status)
      (BitVec.ofNat 3 u.enc.count) u.dec.remainder }

/-- A response takes of the streaming state its two views alone (10_state.md R27). -/
theorem respondWith_withStreamingOf (fc sub : BitVec 2) (eod : Bool) (rlen finfo : Word) :
    (withStreamingOf s u).respondWith fc sub eod rlen finfo =
      withStreamingViewOf (s.respondWith fc sub eod rlen finfo) u := by
  simp [withStreamingViewOf, withStreamingOf, State.respondWith]

theorem finishBulk_withStreamingOf (outcome : Except CmdFault (List Byte)) :
    finishBulk (withStreamingOf s u) outcome = withStreamingViewOf (finishBulk s outcome) u := by
  cases outcome with
  | ok bytes => exact respondWith_withStreamingOf (s.setRbuf bytes) u ..
  | error f => exact respondWith_withStreamingOf (s.setRbuf []) u ..

end

/-- Settles O32: the outcome is computed from the parameters and `IBUF`, and the response takes the views. -/
theorem bulkIsStateless : Obligations.BulkIsStateless := by
  intro s t u offset length i hi hexec
  obtain ⟨transcode, hbulk, -⟩ := exec_bulk hi
  rw [hbulk s] at hexec
  cases hexec
  obtain ⟨-, henc, hdec, -⟩ := bulkFrame_finishBulk s (bulkOutcome transcode offset length s)
  refine ⟨henc, hdec, ?_⟩
  calc exec i (withStreamingOf s u)
      = .next (finishBulk (withStreamingOf s u) (bulkOutcome transcode offset length (withStreamingOf s u))) :=
        hbulk _
    _ = .next (withStreamingViewOf (finishBulk s (bulkOutcome transcode offset length s)) u) :=
        congrArg Host.Outcome.next (finishBulk_withStreamingOf s u _)

/-- Two bulk commands ended alike, as the host sees it: the same response but for the views, and the same result
bytes. -/
def SameBulkResult (t t' : State) : Prop :=
  t.rlen = t'.rlen ∧ t.finfo = t'.finfo ∧ statusFC t.status = statusFC t'.status ∧
    statusSUB t.status = statusSUB t'.status ∧ ∀ k, k < t.rlen.toNat → t.readRbuf k = t'.readRbuf k

/-- A result that fits both `RBUF`s, or a fault, ends both alike. -/
theorem sameBulkResult_finishBulk {s s' : State} {outcome : Except CmdFault (List Byte)}
    (hfits : ∀ bytes, outcome = .ok bytes → bytes.length ≤ s.params.rbufSize ∧ bytes.length ≤ s'.params.rbufSize) :
    SameBulkResult (finishBulk s outcome) (finishBulk s' outcome) := by
  cases outcome with
  | ok bytes =>
    obtain ⟨hs, hs'⟩ := hfits bytes rfl
    refine ⟨rfl, rfl, by simp [finishBulk], by simp [finishBulk], fun k hk => ?_⟩
    have hk : k < bytes.length := hk.trans_le ((BitVec.toNat_ofNat _ _).trans_le (Nat.mod_le _ _))
    have hx := List.getElem?_eq_getElem hk
    exact (readRbuf_deliver hs hx).trans (readRbuf_deliver hs' hx).symm
  | error f => exact ⟨rfl, rfl, by simp [finishBulk], by simp [finishBulk], nofun⟩

/-- Valid ranges of two blocks with the same bytes and alphabet have one outcome, and it ends both alike
(42_bulk_transcoder.md R126). -/
theorem sameBulkResult_of_sameBytes {transcode : Transcode} {s s' : State} {offset offset' length : Int}
    (hparams : ParamsOk s.params) (hparams' : ParamsOk s'.params) (halphabet : s.params.alphabet = s'.params.alphabet)
    (hrange : RangeOk s offset length) (hrange' : RangeOk s' offset' length)
    (hbytes : s.rangeBytes offset length = s'.rangeBytes offset' length)
    (hle : ∀ a bytes out, transcode a bytes = .ok out → out.length ≤ encLen bytes.length) :
    SameBulkResult (finishBulk s (bulkOutcome transcode offset length s))
      (finishBulk s' (bulkOutcome transcode offset' length s')) := by
  rw [bulkOutcome_of_rangeOk _ hrange, bulkOutcome_of_rangeOk _ hrange', ← halphabet, ← hbytes]
  refine sameBulkResult_finishBulk fun out hout => ?_
  have hlen := hle _ _ _ hout
  rw [length_rangeBytes] at hlen
  exact ⟨hlen.trans (encLen_le_of_rangeOk hparams hrange).1, hlen.trans (encLen_le_of_rangeOk hparams' hrange').1⟩

/-- Settles O33: for each command, the one outcome of both ranges. -/
theorem bulkOffsetComposition : Obligations.BulkOffsetComposition := by
  intro s s' offset offset' length hparams hparams' halphabet hrange hrange' hsame
  have hbytes : s.rangeBytes offset length = s'.rangeBytes offset' length :=
    List.map_congr_left fun k hk => hsame k (List.mem_range.mp hk)
  constructor
  · refine ⟨_, _, exec_bulkEnc offset length s, exec_bulkEnc offset' length s', ?_⟩
    refine sameBulkResult_of_sameBytes hparams hparams' halphabet hrange hrange' hbytes fun a raw out hout => ?_
    cases hout
    exact (encodeBytes_length a raw).le
  · refine ⟨_, _, exec_bulkDec offset length s, exec_bulkDec offset' length s', ?_⟩
    exact sameBulkResult_of_sameBytes hparams hparams' halphabet hrange hrange' hbytes fun a bytes out hout =>
      (length_le_of_decodeRange hout).trans (le_encLen _)

/-! ### BULK_DEC after BULK_ENC -/

/-- The encoding of any bytes decodes to them (42_bulk_transcoder.md R128). -/
theorem decodeRange_encodeBytes {a : Alphabet} (ha : a.toList.Nodup) (raw : List Byte) :
    decodeRange a (encodeBytes a raw) = .ok raw := by
  have hlen : (packAll raw).length % 8 ≠ 1 := by
    rw [packAll_length]; exact encLen_mod_eight_ne_one _
  rw [encodeBytes, decodeRange_map_fwd ha hlen, unpackAll_packAll]

/-- A delivered result copied from `RBUF` into the `IBUF` of a block is the range it was copied to
(20_memory.md R53). -/
theorem rangeBytes_of_copied {s s' : State} {bytes : List Byte} {offset : Int}
    (hfits : bytes.length ≤ s.params.rbufSize)
    (hcopy : ∀ k, k < bytes.length →
      some (memRead s'.ibuf (offset.toNat + k)) = (s.deliver bytes).readRbuf k) :
    s'.rangeBytes offset bytes.length = bytes := by
  refine List.ext_getElem (by simp) fun k _ hk => ?_
  have hcell := (hcopy k hk).trans (readRbuf_deliver hfits (List.getElem?_eq_getElem hk))
  simpa [State.rangeBytes, memRange] using hcell

/-- Settles O34: the second range holds the encoding of the first, so its decoding is the first. -/
theorem bulkRoundTrip : Obligations.BulkRoundTrip := by
  intro s t s' offset length offset' hparams hparams' halphabet hrange hexec hrange' hcopy
  obtain rfl : s.deliver (encodeBytes s.params.alphabet (s.rangeBytes offset length)) = t := by
    rw [exec_bulkEnc, bulkOutcome_of_rangeOk _ hrange] at hexec
    exact Host.Outcome.next.inj hexec
  have hrlen := rlen_deliver_encodeBytes hparams hrange s.params.alphabet
  have hlen : encLen length.toNat = (encodeBytes s.params.alphabet (s.rangeBytes offset length)).length := by
    rw [encodeBytes_length, length_rangeBytes]
  have hbytes : s'.rangeBytes offset' (encLen length.toNat) =
      encodeBytes s.params.alphabet (s.rangeBytes offset length) := by
    rw [hrlen, hlen] at hcopy
    rw [hlen]
    exact rangeBytes_of_copied (encodeBytes_rangeBytes_fits hparams hrange _) hcopy
  rw [hrlen] at hrange' ⊢
  have hdecoded : exec (.bulkDec offset' (encLen length.toNat)) s' =
      .next (s'.deliver (s.rangeBytes offset length)) := by
    rw [exec_bulkDec, bulkOutcome_of_rangeOk _ hrange', hbytes, halphabet, decodeRange_encodeBytes hparams'.distinct]
    rfl
  have hle := le_encLen length.toNat
  obtain ⟨-, hword⟩ := encLen_le_of_rangeOk hparams hrange
  obtain ⟨hfits, -⟩ := encLen_le_of_rangeOk hparams' hrange'
  rw [Int.toNat_natCast] at hfits
  refine ⟨_, hdecoded, by simp, ?_, fun k hk => ?_⟩
  · rw [rlen_deliver (by rw [length_rangeBytes]; omega), length_rangeBytes]
  · refine readRbuf_deliver ?_ (getElem?_rangeBytes s offset hk)
    rw [length_rangeBytes]
    exact hle.trans ((le_encLen _).trans hfits)

/-! ### BULK_ENC and the streaming encoder -/

theorem encWriteNext_of_rangeOk {s : State} {offset length : Int} (h : RangeOk s offset length) :
    encWriteNext offset length s =
      ((s.setEnc (encPushAll s.params.alphabet s.enc.buffer (s.rangeBytes offset length)).buffer).emitSink
        (encPushAll s.params.alphabet s.enc.buffer (s.rangeBytes offset length)).out).respond false
        (encPushAll s.params.alphabet s.enc.buffer (s.rangeBytes offset length)).out.length := by
  simp only [encWriteNext, checkRange_eq_none.mpr h]

/-- Valid chunks written one after another push their bytes in order (43_stream_encoder.md R146). -/
theorem writeChunks_of_rangeOk {cs : List Chunk} {s : State} (hcs : ∀ c ∈ cs, RangeOk s c.offset c.length) :
    ∃ t, writeChunks cs s = .next t ∧ t.params = s.params ∧
      t.enc = ⟨(encPushAll s.params.alphabet s.enc.buffer (cs.flatMap Chunk.bytes)).buffer⟩ ∧
      t.sink = s.sink ++ (encPushAll s.params.alphabet s.enc.buffer (cs.flatMap Chunk.bytes)).out := by
  induction cs generalizing s with
  | nil => exact ⟨s, rfl, rfl, rfl, (List.append_nil _).symm⟩
  | cons c cs ih =>
    obtain ⟨hc, hrest⟩ := List.forall_mem_cons.mp hcs
    obtain ⟨t, ht, hparams, henc, hsink⟩ :=
      ih (s := encWriteNext c.offset c.length { s with ibuf := c.ibuf }) (by
        rw [encWriteNext_of_rangeOk (s := { s with ibuf := c.ibuf }) hc]; exact hrest)
    rw [encWriteNext_of_rangeOk (s := { s with ibuf := c.ibuf }) hc] at hparams henc hsink
    refine ⟨t, ht, hparams, henc.trans ?_, hsink.trans ?_⟩
    · rw [List.flatMap_cons, encPushAll_append]; rfl
    · rw [List.flatMap_cons, encPushAll_append, ← List.append_assoc]; rfl

/-- From `enc.count = 0`, valid chunks and then one ENC_FLUSH emit the encoding of the chunks' bytes and leave nothing
pending (43_stream_encoder.md R147). -/
theorem writeChunks_then_encFlush {cs : List Chunk} {s : State} (hempty : s.enc.count = 0)
    (hcs : ∀ c ∈ cs, RangeOk s c.offset c.length) :
    ∃ t u, writeChunks cs s = .next t ∧ exec .encFlush t = .next u ∧ u.params = s.params ∧ u.enc.count = 0 ∧
      u.sink = s.sink ++ encodeBytes s.params.alphabet (cs.flatMap Chunk.bytes) := by
  have hbuffer : s.enc.buffer = [] := List.length_eq_zero_iff.mp hempty
  obtain ⟨t, ht, hparams, henc, hsink⟩ := writeChunks_of_rangeOk hcs
  rw [hbuffer] at henc hsink
  have hencodes := encPushAll_encodes s.params.alphabet (buffer := []) (cs.flatMap Chunk.bytes) (Nat.zero_le _)
  have hpending := encPushAll_pending s.params.alphabet (buffer := []) (cs.flatMap Chunk.bytes) (Nat.zero_le _)
  refine ⟨t, _, ht, rfl, hparams, rfl, ?_⟩
  calc t.sink ++ tailBytes t.params.alphabet t.enc.buffer
      = s.sink ++ ((encPushAll s.params.alphabet [] (cs.flatMap Chunk.bytes)).out ++
          encodeBytes s.params.alphabet (encPushAll s.params.alphabet [] (cs.flatMap Chunk.bytes)).buffer) := by
        rw [hsink, hparams, henc, tailBytes_eq _ hpending, List.append_assoc]
    _ = s.sink ++ encodeBytes s.params.alphabet (cs.flatMap Chunk.bytes) := by rw [← hencodes, List.nil_append]

/-- Settles O41: both emit the encoding of the same bytes. -/
theorem streamingMatchesBulk : Obligations.StreamingMatchesBulk := by
  intro s b cs offset length hempty hparams halphabet hcs hrange hbytes
  obtain ⟨t, u, ht, hu, -, hcount, hsink⟩ := writeChunks_then_encFlush hempty hcs
  rw [hbytes, ← halphabet] at hsink
  refine ⟨t, u, _, _, ht, hu, congrArg Host.Outcome.next (bulkEncNext_of_rangeOk hrange), hsink, hcount, ?_, ?_⟩
  · rw [rlen_deliver_encodeBytes hparams hrange, encodeBytes_length, length_rangeBytes]
  · exact fun k x hx => readRbuf_deliver (encodeBytes_rangeBytes_fits hparams hrange _) hx

end Sys2Proof.Proofs

/-! The streaming encoder (43_stream_encoder.md R140 to R152): what its byte loop emits and leaves pending, group by
group, the one form every encoder command ends in, and the laws of ENC_INIT, ENC_WRITE and ENC_FLUSH that follow. -/

namespace Sys2Proof.Proofs

open Sys2Proof.Machine Sys2Proof.Safety Sys2Proof.Laws

/-! ### The whole groups of a byte sequence -/

/-- The symbol bytes of the whole groups of 7 of a byte sequence, in order (43_stream_encoder.md R143). -/
def fullGroupBytes (a : Alphabet) (l : List Byte) : List Byte :=
  (List.range (l.length / 7)).flatMap fun g => (pack ((l.drop (7 * g)).take 7)).map (fwd a)

/-- The bytes behind the whole groups. -/
def afterFullGroups (l : List Byte) : List Byte := l.drop (7 * (l.length / 7))

theorem length_afterFullGroups (l : List Byte) : (afterFullGroups l).length = l.length % 7 := by
  rw [afterFullGroups, List.length_drop]; omega

theorem length_fullGroupBytes (a : Alphabet) (l : List Byte) : (fullGroupBytes a l).length = 8 * (l.length / 7) := by
  rw [fullGroupBytes, List.length_flatMap, sum_const_map_range _ 8, Nat.mul_comm]
  intro g hg
  have hgroup : ((l.drop (7 * g)).take 7).length = 7 := by simp; omega
  rw [List.length_map, pack_length, hgroup, groupSymbols, if_pos rfl]

theorem fullGroupBytes_of_short (a : Alphabet) {l : List Byte} (hl : l.length < 7) : fullGroupBytes a l = [] := by
  rw [fullGroupBytes, Nat.div_eq_of_lt hl, List.range_zero, List.flatMap_nil]

theorem afterFullGroups_of_short {l : List Byte} (hl : l.length < 7) : afterFullGroups l = l := by
  rw [afterFullGroups, Nat.div_eq_of_lt hl, Nat.mul_zero, List.drop_zero]

section

variable {g : List Byte} (hg : g.length = 7) (rest : List Byte)

include hg

theorem drop_group_append (k : Nat) : (g ++ rest).drop (7 * (k + 1)) = rest.drop (7 * k) := by
  rw [Nat.mul_succ, Nat.add_comm, ← List.drop_drop, List.drop_left' hg]

theorem length_group_append_div : (g ++ rest).length / 7 = rest.length / 7 + 1 := by
  rw [List.length_append, hg]; omega

/-- The bytes of a group in front come first, then those of the rest. -/
theorem fullGroupBytes_group_append (a : Alphabet) :
    fullGroupBytes a (g ++ rest) = (pack g).map (fwd a) ++ fullGroupBytes a rest := by
  simp only [fullGroupBytes, length_group_append_div hg, List.range_succ_eq_map, List.flatMap_cons, List.flatMap_map,
    Nat.succ_eq_add_one, drop_group_append hg, Nat.mul_zero, List.drop_zero, List.take_left' hg]

theorem afterFullGroups_group_append : afterFullGroups (g ++ rest) = afterFullGroups rest := by
  rw [afterFullGroups, length_group_append_div hg, drop_group_append hg, afterFullGroups]

end

/-! ### The byte loop -/

/-- The seventh byte of a group emits its symbols (43_stream_encoder.md R141). -/
theorem encPushAll_cons_of_full (a : Alphabet) {buffer : List Byte} {b : Byte} (h : (buffer ++ [b]).length = 7)
    (raw : List Byte) :
    encPushAll a buffer (b :: raw) =
      ⟨(encPushAll a [] raw).buffer, (pack (buffer ++ [b])).map (fwd a) ++ (encPushAll a [] raw).out⟩ := by
  rw [encPushAll, List.foldl_cons, encPush, if_pos h, foldl_encPush, List.nil_append]

/-- Any other byte stays pending (43_stream_encoder.md R141). -/
theorem encPushAll_cons_of_not_full (a : Alphabet) {buffer : List Byte} {b : Byte} (h : (buffer ++ [b]).length ≠ 7)
    (raw : List Byte) : encPushAll a buffer (b :: raw) = encPushAll a (buffer ++ [b]) raw := by
  rw [encPushAll, List.foldl_cons, encPush, if_neg h, encPushAll]

/-- The loop emits the whole groups of the pending bytes and the new ones together, and keeps what is behind them. -/
theorem encPushAll_eq (a : Alphabet) {buffer : List Byte} (raw : List Byte) (h : buffer.length ≤ 6) :
    encPushAll a buffer raw = ⟨afterFullGroups (buffer ++ raw), fullGroupBytes a (buffer ++ raw)⟩ := by
  induction raw generalizing buffer with
  | nil =>
    have hshort : (buffer ++ []).length < 7 := by rw [List.append_nil]; omega
    rw [afterFullGroups_of_short hshort, fullGroupBytes_of_short a hshort, List.append_nil]
    rfl
  | cons b raw ih =>
    rw [List.append_cons]
    by_cases hfull : (buffer ++ [b]).length = 7
    · rw [encPushAll_cons_of_full a hfull, ih (Nat.zero_le _), List.nil_append, fullGroupBytes_group_append hfull,
        afterFullGroups_group_append hfull]
    · have hpending : (buffer ++ [b]).length ≤ 6 := by
        rw [List.length_append, List.length_singleton] at hfull ⊢; omega
      rw [encPushAll_cons_of_not_full a hfull, ih hpending]

/-- Whatever the loop emits is symbol bytes, from any pending bytes. -/
theorem exists_encPushAll_out_eq_map (a : Alphabet) (buffer raw : List Byte) :
    ∃ vs : List Sym, (encPushAll a buffer raw).out = vs.map (fwd a) := by
  induction raw generalizing buffer with
  | nil => exact ⟨[], rfl⟩
  | cons b raw ih =>
    by_cases hfull : (buffer ++ [b]).length = 7
    · obtain ⟨vs, hvs⟩ := ih []
      exact ⟨pack (buffer ++ [b]) ++ vs, by rw [encPushAll_cons_of_full a hfull, hvs, List.map_append]⟩
    · rw [encPushAll_cons_of_not_full a hfull]
      exact ih _

/-! ### The tail -/

/-- The tail by place: the `pad(c)` symbols of the pending bytes' left-aligned group (43_stream_encoder.md R144). -/
theorem tailBytes_eq_map (a : Alphabet) {buffer : List Byte} (h : buffer.length ≤ 6) :
    tailBytes a buffer =
      (List.range (pad buffer.length)).map fun j => fwd a (barrelExtract (groupValue buffer) j) := by
  unfold tailBytes
  by_cases hempty : buffer.length = 0
  · rw [hempty]; rfl
  · rw [if_pos (Nat.pos_of_ne_zero hempty), pack, groupSymbols, if_neg (by omega), List.map_map]
    rfl

/-- The tail is symbol bytes, of any pending bytes. -/
theorem exists_tailBytes_eq_map (a : Alphabet) (buffer : List Byte) :
    ∃ vs : List Sym, tailBytes a buffer = vs.map (fwd a) := by
  unfold tailBytes
  split
  · exact ⟨pack buffer, rfl⟩
  · exact ⟨[], rfl⟩

/-! ### How an encoder command ends -/

/-- ENC_WRITE of a valid range by whole groups (43_stream_encoder.md R143). -/
theorem encWriteNext_eq_groups {s : State} {offset length : Int} (hpending : s.enc.count ≤ 6)
    (h : RangeOk s offset length) :
    encWriteNext offset length s =
      ((s.setEnc (afterFullGroups (s.enc.buffer ++ s.rangeBytes offset length))).emitSink
        (fullGroupBytes s.params.alphabet (s.enc.buffer ++ s.rangeBytes offset length))).respond false
        (8 * ((s.enc.count + length.toNat) / 7)) := by
  rw [encWriteNext_of_rangeOk h, encPushAll_eq _ _ hpending, length_fullGroupBytes, List.length_append,
    length_rangeBytes, EncRegs.count]

/-- ENC_WRITE of an invalid range answers InvalidRange with the first constraint violated, and does nothing else
(43_stream_encoder.md R143, 60_exceptions.md R195, R197). -/
theorem encWriteNext_of_not_rangeOk {s : State} {offset length : Int} (h : ¬ RangeOk s offset length) :
    encWriteNext offset length s =
      s.respondWith 1 (if offset < 0 then 0 else if length < 0 then 1 else 2) false 0 0 := by
  obtain ⟨cause, hcause, hsub⟩ := checkRange_eq_some h
  simp only [encWriteNext, hcause, raise_eq, hsub, faultFC, faultInfo, BitVec.ofNat_eq_ofNat]

/-- Every encoder command ends in a response after new pending bytes and some emitted symbol bytes, of which ENC_INIT
has none (43_stream_encoder.md R152). -/
theorem exec_encoder_eq_respondWith {i : Instr} {s t : State}
    (hi : i = .encInit ∨ i = .encFlush ∨ ∃ o l, i = .encWrite o l) (h : exec i s = .next t) :
    ∃ (buffer : List Byte) (vs : List Sym) (fc sub : BitVec 2) (rlen : Word),
      t = ((s.setEnc buffer).emitSink (vs.map (fwd s.params.alphabet))).respondWith fc sub false rlen 0 ∧
        (i = .encInit → vs = []) := by
  have hnothing (u : State) : u.emitSink [] = u := by simp only [State.emitSink, List.append_nil]
  rcases hi with rfl | rfl | ⟨offset, length, rfl⟩ <;> cases h
  · exact ⟨[], [], 0, 0, 0, by rw [List.map_nil, hnothing]; rfl, fun _ => rfl⟩
  · obtain ⟨vs, hvs⟩ := exists_tailBytes_eq_map s.params.alphabet s.enc.buffer
    exact ⟨[], vs, 0, 0, _, by rw [← hvs, respond_eq], nofun⟩
  · by_cases hrange : RangeOk s offset length
    · obtain ⟨vs, hvs⟩ := exists_encPushAll_out_eq_map s.params.alphabet s.enc.buffer (s.rangeBytes offset length)
      exact ⟨_, vs, 0, 0, _, by rw [encWriteNext_of_rangeOk hrange, ← hvs, respond_eq], nofun⟩
    · exact ⟨s.enc.buffer, [], 1, _, 0, by rw [encWriteNext_of_not_rangeOk hrange, List.map_nil, hnothing]; rfl, nofun⟩

/-! ### The statements -/

/-- Settles O36: a valid range is streamed by whole groups, an invalid one gets its response alone. -/
theorem encWriteStreamsGroups : Obligations.EncWriteStreamsGroups := by
  intro s offset length hpending
  have hlen : (s.enc.buffer ++ s.rangeBytes offset length).length = s.enc.count + length.toNat := by
    rw [List.length_append, length_rangeBytes, EncRegs.count]
  refine ⟨fun hrange => ⟨_, congrArg Host.Outcome.next (encWriteNext_eq_groups hpending hrange), ?_, ?_, ?_⟩,
    fun hrange => congrArg Host.Outcome.next (encWriteNext_of_not_rangeOk hrange)⟩
  · simp only [State.respond, State.respondWith, emitSink_enc, setEnc_enc, encCount_mk, length_afterFullGroups, hlen]
    simp only [State.emitSink, State.setEnc, fullGroupBytes, afterFullGroups, hlen]
  · exact (length_afterFullGroups _).trans (by rw [hlen])
  · simp [length_fullGroupBytes, hlen]

/-- Settles O37: the tail by place. -/
theorem encFlushEmitsTail : Obligations.EncFlushEmitsTail := by
  intro s hpending
  rw [exec, execEncFlush, tailBytes_eq_map _ hpending]
  rfl

/-- Settles O39: the faulted write wrote the response registers alone, which no command reads. -/
theorem faultedWriteDoesNotPoison : Obligations.FaultedWriteDoesNotPoison := by
  intro s offset length hrange
  refine ⟨_, congrArg Host.Outcome.next (encWriteNext_of_not_rangeOk hrange), ?_, fun i => ?_⟩
  · rw [respondWith_status, statusFC_packStatus]
  · exact responseRegistersAreNotRead i s _ _ _

/-- Settles O40: what chunks push depends on their bytes in order alone. -/
theorem chunkingDoesNotMatter : Obligations.ChunkingDoesNotMatter := by
  intro s cs cs' _ hranges hbytes
  obtain ⟨hcs, hcs'⟩ := List.forall_mem_append.mp hranges
  obtain ⟨t, ht, -, henc, hsink⟩ := writeChunks_of_rangeOk hcs
  obtain ⟨t', ht', -, henc', hsink'⟩ := writeChunks_of_rangeOk hcs'
  rw [hbytes] at henc hsink
  exact ⟨t, t', ht, ht', hsink.trans hsink'.symm, henc.trans henc'.symm⟩

/-- Settles O42: the flush leaves nothing pending, so each part is a stream of its own. -/
theorem midStreamFlushSplits : Obligations.MidStreamFlushSplits := by
  intro s cs cs' hempty hranges
  obtain ⟨hcs, hcs'⟩ := List.forall_mem_append.mp hranges
  obtain ⟨t, u, ht, hu, hparams, hcount, hsink⟩ := writeChunks_then_encFlush hempty hcs
  have hcsu : ∀ c ∈ cs', RangeOk u c.offset c.length := by
    simpa only [RangeOk, hparams] using hcs'
  obtain ⟨v, w, hv, hw, -, -, hsink'⟩ := writeChunks_then_encFlush hcount hcsu
  exact ⟨t, u, v, w, ht, hu, hv, hw, by rw [hsink', hsink, hparams]⟩

/-- Settles O43: the form each encoder command ends in writes of these `SINK` alone. -/
theorem encoderCommandsFrame : Obligations.EncoderCommandsFrame := by
  intro i s t hi hexec
  obtain ⟨buffer, vs, fc, sub, rlen, rfl, hinit⟩ := exec_encoder_eq_respondWith hi hexec
  refine ⟨rfl, rfl, fun _ => rfl, fun _ => rfl, rfl, rfl, rfl, ⟨vs, rfl⟩, fun h => ?_⟩
  simp [hinit h]

/-- Settles O35: the response after the pending bytes are dropped. -/
theorem encInitEmptiesEncoder : Obligations.EncInitEmptiesEncoder := fun _ => rfl

/-- Settles O38: the first flush leaves nothing pending, and the tail of nothing is empty. -/
theorem secondFlushDoesNothing : Obligations.SecondFlushDoesNothing := by
  intro s t hexec
  cases hexec
  exact ⟨rfl, _, rfl, List.append_nil _, rfl, rfl, statusFC_packStatus ..⟩

end Sys2Proof.Proofs

/-! The streaming decoder (44_stream_decoder.md R160 to R179): good symbols only re-cut the packed stream, so their
bytes, their number and the registers after them are known at once; every DEC_READ is some good symbols and one of four
ends, and the laws of DEC_INIT, DEC_READ and DEC_AVAIL follow. -/

namespace Sys2Proof.Proofs

open Sys2Proof.Machine Sys2Proof.Safety Sys2Proof.Laws

/-! ### Sizing the decoder's reads, by phase -/

theorem leftover_lt_eight (c : Nat) : leftover c < 8 := Nat.mod_lt _ (by decide)

/-- One more symbol leaves one leftover bit less, or all its own seven (10_state.md R25). -/
theorem leftover_succ (c : BitVec 3) :
    leftover (c + 1).toNat = if leftover c.toNat = 0 then 7 else leftover c.toNat - 1 := by
  have hc := c.isLt
  have hsucc : (c + 1).toNat = (c.toNat + 1) % 8 := BitVec.toNat_add c 1
  unfold leftover
  split_ifs <;> omega

/-- The bits of `avail(p, c)` bytes and of what `p` symbols then leave over (41_pack_primitives.md R112). -/
theorem avail_bits {p c : Nat} (hc : c < 8) : 8 * avail p c + leftover ((c + p) % 8) = leftover c + 7 * p := by
  rw [avail_eq, decLen_eq_div, leftover, leftover]
  omega

/-- `p` symbols complete `k` bytes when they are as many as these need (41_pack_primitives.md R112). -/
theorem need_le_iff_le_avail (p k : Nat) (c : BitVec 3) : need k c.toNat ≤ p ↔ k ≤ avail p c.toNat :=
  (needAndAvailAreAdjoint p k c.toNat c.isLt).1

theorem lt_need_iff_avail_lt (p k : Nat) (c : BitVec 3) : p < need k c.toNat ↔ avail p c.toNat < k := by
  rw [← Nat.not_le, ← Nat.not_le, need_le_iff_le_avail]

theorem avail_need (k : Nat) (c : BitVec 3) : avail (need k c.toNat) c.toNat = k :=
  (needAndAvailAreAdjoint 0 k c.toNat c.isLt).2

theorem avail_mono {p q : Nat} (h : p ≤ q) (c : BitVec 3) : avail p c.toNat ≤ avail q c.toNat :=
  (need_le_iff_le_avail _ _ c).mp (((need_le_iff_le_avail p _ c).mpr le_rfl).trans h)

theorem need_zero (c : Nat) : need 0 c = 0 := by simp [need, pad]

/-- The bytes asked for in two parts need as many symbols as asked for at once: the second part starts at the phase the
first leaves (44_stream_decoder.md R172). -/
theorem need_add (j k : Nat) {c : Nat} (hc : c < 8) :
    need (j + k) c = need j c + need k ((c + need j c) % 8) := by
  simp only [need_eq, encLen_eq_div, leftover]
  omega

theorem need_mono {j k : Nat} (h : j ≤ k) (c : BitVec 3) : need j c.toNat ≤ need k c.toNat :=
  (need_le_iff_le_avail _ _ c).mpr (h.trans_eq (avail_need k c).symm)

/-- `p` symbols complete at most `p` bytes (41_pack_primitives.md R112). -/
theorem avail_le (p c : Nat) : avail p c ≤ p := by
  have hdec := decLen_le (p - leftover c)
  rw [avail_eq]
  omega

/-- At a group boundary no byte is owed, so the lengths are those of a whole range (41_pack_primitives.md R111,
R112). -/
theorem need_boundary (k : Nat) : need k 0 = encLen k := by
  rw [need_eq]
  simp [leftover]

theorem avail_boundary (p : Nat) : avail p 0 = decLen p := by
  rw [avail_eq]
  simp [leftover]

/-- The phase after all symbols of `n` bytes (44_stream_decoder.md R173). -/
theorem encLen_mod_eight (n : Nat) : encLen n % 8 = pad (n % 7) := by
  have hpad : pad (n % 7) < 8 := by
    rw [pad]
    split <;> omega
  rw [encLen]
  omega

/-! ### One good symbol -/

/-- Two values side by side have their bits side by side. -/
theorem bitsMsb_append {m n : Nat} (x : BitVec m) (y : BitVec n) : bitsMsb (x ++ y) = bitsMsb x ++ bitsMsb y := by
  refine List.ext_getElem (by simp) fun k hk hk' => ?_
  rw [← List.getD_eq_getElem _ false, ← List.getD_eq_getElem _ false, getD_bitsMsb, BitVec.getMsbD_append]
  split
  · next hge =>
    rw [List.getD_append_right _ _ _ _ (by rwa [length_bitsMsb]), length_bitsMsb, getD_bitsMsb]
  · next hlt =>
    rw [List.getD_append _ _ _ _ (by rw [length_bitsMsb]; omega), getD_bitsMsb]

/-- The byte of ALIGN mode is the `L` low bits of the held symbol, then the top of the new one (41_pack_primitives.md
R109). -/
theorem bitsMsb_barrelAlign (hold v : Sym) {L : Nat} (hpos : 0 < L) (hle : L ≤ 7) :
    bitsMsb (barrelAlign hold v L) = ((bitsMsb hold ++ bitsMsb v).drop (7 - L)).take 8 := by
  rw [← bitsMsb_append]
  refine List.ext_getElem (by simp; omega) fun k hk hk' => ?_
  rw [length_bitsMsb] at hk
  simp [bitsMsb, barrelAlign, BitVec.getMsbD_eq_getLsbD, hk, show 7 - L + k < 14 by omega,
    show 7 - k < 8 by omega, show L - 1 + (7 - k) = 13 - (7 - L + k) by omega]

/-- One good symbol drops no bit of the packed stream and adds none: what was left over and the symbol are the byte it
completes and what is left over then (44_stream_decoder.md R169). -/
theorem leftoverBits_append_bitsMsb (d : DecRegs) (v : Sym) :
    leftoverBits d ++ bitsMsb v = bitString (decPush d v).2.toList ++ leftoverBits (decPush d v).1 := by
  have hlt := leftover_lt_eight d.remainder.toNat
  simp only [leftoverBits, decPush, decStep, leftover_succ]
  by_cases hzero : leftover d.remainder.toNat = 0
  · simp [hzero, List.drop_eq_nil_of_le]
  · have hbyte := bitsMsb_barrelAlign d.hold v (Nat.pos_of_ne_zero hzero) (by omega)
    have hrest : (bitsMsb v).drop (7 - (leftover d.remainder.toNat - 1)) =
        ((bitsMsb d.hold ++ bitsMsb v).drop (7 - leftover d.remainder.toNat)).drop 8 := by
      rw [List.drop_drop, List.drop_append, length_bitsMsb,
        List.drop_eq_nil_of_le (as := bitsMsb d.hold) (by rw [length_bitsMsb]; omega), List.nil_append]
      congr 1; omega
    rw [if_neg hzero, if_neg hzero, Option.toList_some, bitString_cons, bitString_nil, List.append_nil, hbyte, hrest,
      List.take_append_drop, List.drop_append_of_le_length (by rw [length_bitsMsb]; omega)]

/-! ### Good symbols one after another -/

/-- The registers after good symbols (44_stream_decoder.md R161). -/
theorem feed_regs (d : DecRegs) (vs : List Sym) :
    (feed d vs).1 = ⟨d.remainder + BitVec.ofNat 3 vs.length, vs.getLastD d.hold⟩ := by
  induction vs generalizing d with
  | nil => simp [feed]
  | cons v vs ih =>
    rw [feed, ih, decPush_regs, List.getLastD_cons, List.length_cons, Nat.add_comm vs.length, BitVec.ofNat_add,
      BitVec.add_assoc]
    rfl

/-- Symbols fed in two parts: the second starts from the registers the first left. -/
theorem feed_append (d : DecRegs) (vs ws : List Sym) :
    feed d (vs ++ ws) = ((feed (feed d vs).1 ws).1, (feed d vs).2 ++ (feed (feed d vs).1 ws).2) := by
  induction vs generalizing d with
  | nil => rfl
  | cons v vs ih => simp only [List.cons_append, feed, ih, List.append_assoc]

/-- Good symbols re-cut the packed stream: the bits left over before and theirs are the bits of the bytes and those left
over after. -/
theorem leftoverBits_append_bitString (d : DecRegs) (vs : List Sym) :
    leftoverBits d ++ bitString vs = bitString (feed d vs).2 ++ leftoverBits (feed d vs).1 := by
  induction vs generalizing d with
  | nil => simp [feed]
  | cons v vs ih =>
    rw [bitString_cons, ← List.append_assoc, leftoverBits_append_bitsMsb, List.append_assoc, ih, feed, bitString_append,
      List.append_assoc]

/-- The bytes are the next bits of the stream (44_stream_decoder.md R163). -/
theorem bitString_feed (d : DecRegs) (vs : List Sym) :
    bitString (feed d vs).2 = (leftoverBits d ++ bitString vs).take (8 * (feed d vs).2.length) := by
  rw [leftoverBits_append_bitString, List.take_left' (length_bitString _)]

theorem length_leftoverBits (d : DecRegs) : (leftoverBits d).length = leftover d.remainder.toNat := by
  have hlt := leftover_lt_eight d.remainder.toNat
  rw [leftoverBits, List.length_drop, length_bitsMsb]
  omega

/-- The phase counts modulo 8 (10_state.md R23). -/
theorem toNat_phase (c : BitVec 3) (n : Nat) : (c + BitVec.ofNat 3 n).toNat = (c.toNat + n) % 8 := by
  rw [BitVec.toNat_add, BitVec.toNat_ofNat]
  omega

/-- Good symbols complete `avail` bytes: both sides count the bits of the stream. -/
theorem length_feed (d : DecRegs) (vs : List Sym) : (feed d vs).2.length = avail vs.length d.remainder.toNat := by
  have hcount := congrArg List.length (leftoverBits_append_bitString d vs)
  have havail := avail_bits (p := vs.length) d.remainder.isLt
  simp only [List.length_append, length_leftoverBits, length_bitString, feed_regs, toNat_phase] at hcount
  omega

/-! ### The pulls of a DEC_READ -/

/-- Pulls that gave the good symbols `vs`, left `rest` in the source and ended as `stop` says. -/
def feedRun (d : DecRegs) (vs : List Sym) (rest : List SrcAnswer) (stop : ReadStop) : ReadRun :=
  ⟨(feed d vs).1, rest, (feed d vs).2, stop⟩

/-- No more answers leave the source than the loop may pull, and those from its front (20_memory.md R55). -/
theorem exists_readLoop_src_eq_drop (a : Alphabet) (answers : List SrcAnswer) (n : Nat) (d : DecRegs) :
    ∃ k, k ≤ n ∧ (readLoop a answers n d).src = answers.drop k := by
  fun_induction readLoop a answers n d with
  | case1 answers d => exact ⟨0, le_rfl, rfl⟩
  | case2 n d => exact ⟨0, Nat.zero_le _, rfl⟩
  | case3 rest n d => exact ⟨1, Nat.le_add_left 1 n, rfl⟩
  | case4 rest n d => exact ⟨1, Nat.le_add_left 1 n, rfl⟩
  | case5 b rest n d hbad => exact ⟨1, Nat.le_add_left 1 n, rfl⟩
  | case6 b rest n d v hgood r ih =>
    obtain ⟨k, hk, hsrc⟩ := ih
    exact ⟨k + 1, Nat.succ_le_succ hk, hsrc⟩

section

variable {s : State} {count : Int} {vs : List Sym} {rest : List SrcAnswer}

/-- The pulls of every DEC_READ are some good symbols, no more than needed, and how they ended
(44_stream_decoder.md R163). -/
theorem exists_readRun_eq_feedRun (s : State) (count : Int) :
    ∃ vs, vs.length ≤ need count.toNat s.dec.remainder.toNat ∧
      s.readRun count = feedRun s.dec vs (s.readRun count).src (s.readRun count).stop := by
  obtain ⟨vs, hlen, hdec, hout, -⟩ :=
    readLoop_cases s.params.alphabet s.src (need count.toNat s.dec.remainder.toNat) s.dec
  refine ⟨vs, hlen, ?_⟩
  rw [feedRun, ← hdec, ← hout]
  rfl

variable (hparams : ParamsOk s.params)

include hparams

/-- Of a source that begins with good symbols no more than needed, they are fed, and the loop goes on with the rest. -/
theorem readRun_of_symbolSource (hsrc : s.src = symbolSource s.params.alphabet vs ++ rest) {n : Nat}
    (hneed : need count.toNat s.dec.remainder.toNat = vs.length + n) :
    s.readRun count =
      { readLoop s.params.alphabet rest n (feed s.dec vs).1 with
        out := (feed s.dec vs).2 ++ (readLoop s.params.alphabet rest n (feed s.dec vs).1).out } := by
  rw [State.readRun, hsrc, hneed]
  exact readLoop_symbols (inv_fwd hparams.distinct) vs rest n s.dec

/-- The symbols the command needs are there (44_stream_decoder.md R163). -/
theorem readRun_complete (hsrc : s.src = symbolSource s.params.alphabet vs ++ rest)
    (hneed : vs.length = need count.toNat s.dec.remainder.toNat) :
    s.readRun count = feedRun s.dec vs rest .complete := by
  rw [readRun_of_symbolSource hparams hsrc (n := 0) hneed.symm, readLoop_zero, List.append_nil, feedRun]

variable (hneed : vs.length < need count.toNat s.dec.remainder.toNat)

include hneed

/-- The source runs short after fewer (44_stream_decoder.md R164; 20_memory.md R55). -/
theorem readRun_short (hsrc : s.src = symbolSource s.params.alphabet vs ++ .short :: rest ∨
      s.src = symbolSource s.params.alphabet vs ∧ rest = []) :
    s.readRun count = feedRun s.dec vs rest .short := by
  obtain ⟨n, hn⟩ := Nat.exists_eq_add_of_lt hneed
  rcases hsrc with hsrc | ⟨hsrc, rfl⟩
  · rw [readRun_of_symbolSource hparams hsrc (n := n + 1) hn, readLoop, List.append_nil, feedRun]
  · rw [readRun_of_symbolSource hparams (rest := []) (by rw [hsrc, List.append_nil]) (n := n + 1) hn, readLoop,
      List.append_nil, feedRun]

/-- A byte that is not in the alphabet comes before them (44_stream_decoder.md R170). -/
theorem readRun_bad {x : Byte} (hbad : ∀ v, fwd s.params.alphabet v ≠ x)
    (hsrc : s.src = symbolSource s.params.alphabet vs ++ .byte x :: rest) :
    s.readRun count = feedRun s.dec vs rest (.bad x) := by
  obtain ⟨n, hn⟩ := Nat.exists_eq_add_of_lt hneed
  rw [readRun_of_symbolSource hparams hsrc (n := n + 1) hn, feedRun]
  simp only [readLoop, inv_eq_none_iff.mpr hbad, List.append_nil]

end

/-! ### How a decoder command ends -/

theorem exec_decRead_of_nonneg {count : Int} (hcount : 0 ≤ count) (s : State) :
    exec (.decRead count) s = finishRead count s (s.readRun count) := by
  rw [exec, execDecRead, checkCount_of_nonneg hcount]

theorem exec_decInit (s : State) : exec .decInit s = .next (s.clearDec.respondWith 0 0 false 0 0) := rfl

theorem exec_decAvail_of_nonneg {p : Int} (hp : 0 ≤ p) (s : State) :
    exec (.decAvail p) s =
      .next (s.respondWith 0 0 false (BitVec.ofNat 32 (avail p.toNat s.dec.remainder.toNat)) 0) := by
  rw [exec, execDecAvail, decAvailNext, checkCount_of_nonneg hp, respond_eq]

theorem exec_decAvail_of_neg {p : Int} (hp : p < 0) (s : State) :
    exec (.decAvail p) s = .next (s.respondWith 1 1 false 0 0) := by
  rw [exec, execDecAvail, decAvailNext, checkCount_of_neg hp]
  rfl

/-- DEC_AVAIL is its response, whatever the operand (44_stream_decoder.md R167). -/
theorem exec_decAvail_eq_respondWith {p : Int} {s t : State} (h : exec (.decAvail p) s = .next t) :
    ∃ (fc sub : BitVec 2) (rlen : Word), t = s.respondWith fc sub false rlen 0 := by
  rcases Int.lt_or_le p 0 with hp | hp
  · rw [exec_decAvail_of_neg hp] at h
    cases h
    exact ⟨1, 1, 0, rfl⟩
  · rw [exec_decAvail_of_nonneg hp] at h
    cases h
    exact ⟨0, 0, _, rfl⟩

/-- A command that pulled nothing left the block as it was. -/
theorem afterRead_readRun_of_nonpos {count : Int} (hcount : count ≤ 0) (s : State) :
    s.afterRead (s.readRun count) = s := by
  rw [State.readRun, Int.toNat_of_nonpos hcount, need_zero, readLoop_zero]
  simp only [State.afterRead, State.emitDout, List.append_nil, State.setDec, State.setSrc]

/-- Every DEC_READ that ends, the one of a negative count too, ends in a response after its pulls, and that response
says end of data when a count above 0 met no fault and no byte (44_stream_decoder.md R163 to R166, R170). -/
theorem exec_decRead_eq_respondWith {count : Int} {s t : State} (h : exec (.decRead count) s = .next t) :
    ∃ (fc sub : BitVec 2) (eod : Bool) (rlen finfo : Word),
      t = (s.afterRead (s.readRun count)).respondWith fc sub eod rlen finfo ∧
        (eod = true ↔ 0 < count ∧ fc = 0 ∧ (s.readRun count).out = []) := by
  rw [exec] at h
  rcases execDecRead_cases count s with ⟨hneg, he⟩ | ⟨-, ⟨-, he⟩ | ⟨x, -, he⟩ | ⟨-, he⟩⟩ <;> rw [he] at h <;> cases h
  · refine ⟨1, 1, false, 0, 0, ?_, by simp⟩
    rw [afterRead_readRun_of_nonpos hneg.le]
    rfl
  · exact ⟨2, 0, false, _, _, rfl, by simp⟩
  · exact ⟨0, 0, _, _, 0, rfl, by simp [eodOf]⟩

/-- The bytes of a DEC_READ are no more than it asks for (44_stream_decoder.md R164). -/
theorem length_readRun_out_le (s : State) (count : Int) : (s.readRun count).out.length ≤ count.toNat := by
  obtain ⟨vs, hlen, hrun⟩ := exists_readRun_eq_feedRun s count
  calc (s.readRun count).out.length = avail vs.length s.dec.remainder.toNat := by rw [hrun, feedRun, length_feed]
    _ ≤ avail (need count.toNat s.dec.remainder.toNat) s.dec.remainder.toNat := avail_mono hlen s.dec.remainder
    _ = count.toNat := avail_need count.toNat s.dec.remainder

/-- No other command than DEC_READ says end of data (10_state.md R31). -/
theorem statusEOD_of_not_decRead {i : Instr} {s t : State} (h : exec i s = .next t)
    (hi : ∀ count, i ≠ .decRead count) : statusEOD t.status = false := by
  have hbulk (s : State) (outcome : Except CmdFault (List Byte)) :
      statusEOD (finishBulk s outcome).status = false := by
    cases outcome <;> simp [finishBulk]
  have henc (hi : i = .encInit ∨ i = .encFlush ∨ ∃ o l, i = .encWrite o l) : statusEOD t.status = false := by
    obtain ⟨buffer, vs, fc, sub, rlen, rfl, -⟩ := exec_encoder_eq_respondWith hi h
    simp
  cases i with
  | bulkEnc offset length => rw [exec_bulkEnc] at h; cases h; exact hbulk s _
  | bulkDec offset length => rw [exec_bulkDec] at h; cases h; exact hbulk s _
  | encInit => exact henc (.inl rfl)
  | encWrite offset length => exact henc (.inr (.inr ⟨offset, length, rfl⟩))
  | encFlush => exact henc (.inr (.inl rfl))
  | decInit => rw [exec_decInit] at h; cases h; simp
  | decRead count => exact absurd rfl (hi count)
  | decAvail p =>
    obtain ⟨fc, sub, rlen, rfl⟩ := exec_decAvail_eq_respondWith h
    simp

/-! ### The statements about one command -/

/-- Settles O45: the response after the registers are cleared. -/
theorem decInitAtGroupBoundary : Obligations.DecInitAtGroupBoundary :=
  fun s => ⟨_, exec_decInit s, rfl, rfl, rfl, rfl, rfl, rfl, fun _ => rfl, fun _ => rfl, rfl, rfl, rfl, rfl⟩

/-- Settles O51: no symbol is needed, so nothing is pulled. -/
theorem decReadZeroDoesNothing : Obligations.DecReadZeroDoesNothing := by
  intro s
  rw [exec_decRead_of_nonneg le_rfl, State.readRun, Int.toNat_zero, need_zero, readLoop_zero]
  simp [finishRead, State.respondWith, State.setDec, State.setSrc, State.emitDout, eodOf]

/-- Settles O52: the response alone, by the sign of the operand. -/
theorem decAvailIsPureQuery : Obligations.DecAvailIsPureQuery :=
  fun s _ => ⟨fun hp => exec_decAvail_of_nonneg hp s, fun hp => exec_decAvail_of_neg hp s⟩

/-- Settles O46: the symbols needed are the stream's next ones, and complete the bytes asked for. -/
theorem decReadDeliversCount : Obligations.DecReadDeliversCount := by
  intro s count vs rest hparams hcount hneed hsrc
  have hlen : (feed s.dec vs).2.length = count.toNat := by rw [length_feed, hneed, avail_need]
  have heod : eodOf count count.toNat = false := by simp [eodOf]
  refine ⟨(feed s.dec vs).2, hlen, bitString_feed s.dec vs, ?_⟩
  rw [exec_decRead_of_nonneg hcount, readRun_complete hparams hsrc hneed]
  simp only [finishRead, feedRun, hlen, heod]
  rw [feed_regs]
  rfl

/-- Settles O47: the good symbols complete fewer bytes than asked for, and the source's `none` ends the command. -/
theorem decReadShortRead : Obligations.DecReadShortRead := by
  intro s count vs rest hparams hcount hneed hsrc
  have hlt : (feed s.dec vs).2.length < count.toNat := by
    rwa [length_feed, ← lt_need_iff_avail_lt]
  have heod : eodOf count (feed s.dec vs).2.length = decide ((feed s.dec vs).2 = []) := by
    simp [eodOf, show 0 < count by omega]
  refine ⟨(feed s.dec vs).2, length_feed s.dec vs, hlt, bitString_feed s.dec vs, ?_⟩
  rw [exec_decRead_of_nonneg hcount, readRun_short hparams hneed hsrc]
  simp only [finishRead, feedRun, heod]
  rw [feed_regs]
  rfl

/-- Settles O48: the good symbols stay decoded, and the bad byte ends the command with a fault. -/
theorem decReadBadSymbol : Obligations.DecReadBadSymbol := by
  intro s count vs x rest hparams hcount hneed hbad hsrc
  refine ⟨(feed s.dec vs).2, length_feed s.dec vs, bitString_feed s.dec vs, ?_⟩
  rw [exec_decRead_of_nonneg hcount, readRun_bad hparams hneed hbad hsrc]
  simp only [finishRead, feedRun]
  rw [feed_regs]
  rfl

/-- Settles O21: DEC_READ's own response, and no other command's. -/
theorem endOfDataFlagExactly : Obligations.EndOfDataFlagExactly := by
  intro i s t h
  by_cases hi : ∃ count, i = .decRead count
  · obtain ⟨count, rfl⟩ := hi
    obtain ⟨fc, sub, eod, rlen, finfo, rfl, heod⟩ := exec_decRead_eq_respondWith h
    simpa using heod
  · have hread : ∀ count, i ≠ .decRead count := fun count hcount => hi ⟨count, hcount⟩
    rw [statusEOD_of_not_decRead h hread]
    exact iff_of_false nofun fun ⟨count, hcount, _⟩ => hread count hcount

/-- Settles O57: the form each decoder command ends in. -/
theorem decoderCommandsFrame : Obligations.DecoderCommandsFrame := by
  rintro i s t (rfl | ⟨n, rfl⟩ | ⟨p, rfl⟩) h
  · rw [exec_decInit] at h
    cases h
    exact ⟨rfl, rfl, fun _ => rfl, fun _ => rfl, rfl, rfl, fun _ => ⟨rfl, rfl⟩, nofun, nofun⟩
  · obtain ⟨fc, sub, eod, rlen, finfo, rfl, -⟩ := exec_decRead_eq_respondWith h
    refine ⟨rfl, rfl, fun _ => rfl, fun _ => rfl, rfl, rfl, nofun, ?_, nofun⟩
    rintro _ ⟨⟩
    exact ⟨⟨_, rfl, length_readRun_out_le s n⟩, exists_readLoop_src_eq_drop ..⟩
  · obtain ⟨fc, sub, rlen, rfl⟩ := exec_decAvail_eq_respondWith h
    exact ⟨rfl, rfl, fun _ => rfl, fun _ => rfl, rfl, rfl, nofun, nofun, fun _ _ => ⟨rfl, rfl, rfl⟩⟩

/-! ### Reads one after another -/

/-- From `s` to `t` the decoder has taken the first `n` of the good symbols `vs` its source began with, all of them if
there are fewer. -/
structure Consumed (s : State) (vs : List Sym) (rest : List SrcAnswer) (n : Nat) (t : State) : Prop where
  params : t.params = s.params
  dec : t.dec = (feed s.dec (vs.take n)).1
  src : t.src = symbolSource s.params.alphabet (vs.drop n) ++ rest
  dout : t.dout = s.dout ++ (feed s.dec (vs.take n)).2

section

variable {s t u : State} {vs : List Sym} {rest : List SrcAnswer} {m n : Nat}

theorem Consumed.refl (hsrc : s.src = symbolSource s.params.alphabet vs ++ rest) : Consumed s vs rest 0 s where
  params := rfl
  dec := rfl
  src := hsrc
  dout := (List.append_nil _).symm

theorem Consumed.trans (h : Consumed s vs rest m t) (h' : Consumed t (vs.drop m) rest n u) :
    Consumed s vs rest (m + n) u where
  params := h'.params.trans h.params
  dec := by rw [h'.dec, h.dec, List.take_add, feed_append]
  src := by rw [h'.src, h.params, List.drop_drop]
  dout := by rw [h'.dout, h.dout, h.dec, List.take_add, feed_append, List.append_assoc]

/-- Beyond the symbols there are, how many were to be taken makes no difference. -/
theorem Consumed.of_length_le (h : Consumed s vs rest m t) (hm : vs.length ≤ m) (hn : vs.length ≤ n) :
    Consumed s vs rest n t where
  params := h.params
  dec := by rw [h.dec, List.take_of_length_le hm, List.take_of_length_le hn]
  src := by rw [h.src, List.drop_eq_nil_of_le hm, List.drop_eq_nil_of_le hn]
  dout := by rw [h.dout, List.take_of_length_le hm, List.take_of_length_le hn]

theorem Consumed.phase (h : Consumed s vs rest n t) (hn : n ≤ vs.length) :
    t.dec.remainder.toNat = (s.dec.remainder.toNat + n) % 8 := by
  rw [h.dec, feed_regs, List.length_take, Nat.min_eq_left hn, toNat_phase]

end

section

variable {s : State} {count : Int} {counts : List Int} {vs : List Sym} {rest : List SrcAnswer}

/-- A source of good symbols, enough of them or nothing behind them, feeds a DEC_READ those it needs, as far as they
go (44_stream_decoder.md R163, R164). -/
theorem readRun_of_goodSource (hparams : ParamsOk s.params)
    (hsrc : s.src = symbolSource s.params.alphabet vs ++ rest)
    (hend : need count.toNat s.dec.remainder.toNat ≤ vs.length ∨ rest = []) :
    ∃ stop, (stop = .complete ∨ stop = .short) ∧
      s.readRun count = feedRun s.dec (vs.take (need count.toNat s.dec.remainder.toNat))
        (symbolSource s.params.alphabet (vs.drop (need count.toNat s.dec.remainder.toNat)) ++ rest) stop := by
  rcases Nat.lt_or_ge vs.length (need count.toNat s.dec.remainder.toNat) with hlt | hge
  · obtain rfl := hend.resolve_left (Nat.not_le.mpr hlt)
    rw [List.append_nil] at hsrc
    refine ⟨.short, .inr rfl, ?_⟩
    rw [readRun_short hparams hlt (.inr ⟨hsrc, rfl⟩), List.take_of_length_le hlt.le, List.drop_eq_nil_of_le hlt.le]
    rfl
  · refine ⟨.complete, .inl rfl, readRun_complete hparams ?_ (by rw [List.length_take, Nat.min_eq_left hge])⟩
    rw [hsrc, ← List.append_assoc, symbolSource, symbolSource, symbolSource, ← List.map_append, List.take_append_drop]

/-- A DEC_READ from such a source does not fault (44_stream_decoder.md R163 to R165). -/
theorem exists_exec_decRead_of_goodSource (hparams : ParamsOk s.params) (hcount : 0 ≤ count)
    (hsrc : s.src = symbolSource s.params.alphabet vs ++ rest)
    (hend : need count.toNat s.dec.remainder.toNat ≤ vs.length ∨ rest = []) :
    ∃ t, exec (.decRead count) s = .next t ∧ Consumed s vs rest (need count.toNat s.dec.remainder.toNat) t ∧
      statusFC t.status = 0 ∧
      ∀ out, t.dout = s.dout ++ out →
        statusEOD t.status = eodOf count out.length ∧ t.rlen = BitVec.ofNat 32 out.length := by
  obtain ⟨stop, hstop, hrun⟩ := readRun_of_goodSource hparams hsrc hend
  have hfinish : finishRead count s (s.readRun count) =
      .next ((s.afterRead (s.readRun count)).respond (eodOf count (s.readRun count).out.length)
        (s.readRun count).out.length) := by
    rw [hrun]
    rcases hstop with rfl | rfl <;> rfl
  refine ⟨_, (exec_decRead_of_nonneg hcount s).trans hfinish, ?_, by simp, fun out hout => ?_⟩
  · rw [hrun]
    exact ⟨rfl, rfl, rfl, rfl⟩
  · obtain rfl : (s.readRun count).out = out := by simpa using hout
    simp

/-- Reads one after another take from such a source what one read of their sum would (44_stream_decoder.md R172). -/
theorem exists_execAll_decRead_of_goodSource (hparams : ParamsOk s.params) (hcounts : ∀ n ∈ counts, 0 ≤ n)
    (hsrc : s.src = symbolSource s.params.alphabet vs ++ rest)
    (hend : need counts.sum.toNat s.dec.remainder.toNat ≤ vs.length ∨ rest = []) :
    ∃ t, execAll (counts.map .decRead) s = .next t ∧
      Consumed s vs rest (need counts.sum.toNat s.dec.remainder.toNat) t ∧
      (counts ≠ [] → statusFC t.status = 0) := by
  induction counts generalizing s vs with
  | nil => exact ⟨s, rfl, by simpa [need_zero] using Consumed.refl hsrc, (absurd rfl ·)⟩
  | cons count counts ih =>
    obtain ⟨hcount, hrest⟩ := List.forall_mem_cons.mp hcounts
    have hsum : (count :: counts).sum.toNat = count.toNat + counts.sum.toNat := by
      rw [List.sum_cons, Int.toNat_add hcount (List.sum_nonneg hrest)]
    rw [hsum] at hend ⊢
    have hle := need_mono (Nat.le_add_right count.toNat counts.sum.toNat) s.dec.remainder
    obtain ⟨t, ht, hfirst, hfc, -⟩ := exists_exec_decRead_of_goodSource hparams hcount hsrc (hend.imp_left hle.trans)
    have htotal (henough : need count.toNat s.dec.remainder.toNat ≤ vs.length) :
        need (count.toNat + counts.sum.toNat) s.dec.remainder.toNat =
          need count.toNat s.dec.remainder.toNat + need counts.sum.toNat t.dec.remainder.toNat := by
      rw [hfirst.phase henough, need_add _ _ s.dec.remainder.isLt]
    obtain ⟨u, hu, hsecond, hfc'⟩ := ih (s := t) (vs := vs.drop (need count.toNat s.dec.remainder.toNat))
      (hfirst.params ▸ hparams) hrest (hfirst.params ▸ hfirst.src) (hend.imp_left fun henough => by
        rw [htotal (hle.trans henough)] at henough
        rw [List.length_drop]
        omega)
    refine ⟨u, ?_, ?_, fun _ => ?_⟩
    · rw [List.map_cons, execAll, ht]
      exact hu
    · have hboth := hfirst.trans hsecond
      rcases Nat.lt_or_ge vs.length (need count.toNat s.dec.remainder.toNat) with hlt | hge
      · exact hboth.of_length_le (by omega) (by omega)
      · rwa [htotal hge]
    · cases counts with
      | nil => cases hu; exact hfc
      | cons k ks => exact hfc' (List.cons_ne_nil k ks)

/-- Bytes taken from enough good symbols are as many as were asked for. -/
theorem Consumed.length_dout {t : State} {k : Nat} (h : Consumed s vs rest (need k s.dec.remainder.toNat) t)
    (henough : need k s.dec.remainder.toNat ≤ vs.length) : t.dout.length = s.dout.length + k := by
  rw [h.dout, List.length_append, length_feed, List.length_take, Nat.min_eq_left henough, avail_need]

end

/-! ### The statements about several commands -/

/-- Settles O54: both consume the symbols the sum needs. -/
theorem splittingReadsDoesNotMatter : Obligations.SplittingReadsDoesNotMatter := by
  intro s counts vs rest hparams hcounts henough hsrc
  obtain ⟨t, ht, hreads, -⟩ := exists_execAll_decRead_of_goodSource hparams hcounts hsrc (.inl henough)
  obtain ⟨u, hu, hread, -⟩ :=
    exists_exec_decRead_of_goodSource hparams (List.sum_nonneg hcounts) hsrc (.inl henough)
  exact ⟨t, u, ht, hu, hreads.dout.trans hread.dout.symm, hreads.src.trans hread.src.symm,
    hreads.dec.trans hread.dec.symm, hreads.length_dout henough⟩

/-- Settles O53: the symbols the answer needs are at most the `p` asked about, and one byte more needs more. -/
theorem decAvailIsExact : Obligations.DecAvailIsExact := by
  intro s t p vs rest hparams hwf hp hlen hsrc hexec
  rw [exec_decAvail_of_nonneg hp] at hexec
  cases hexec
  obtain ⟨-, hp32⟩ : -(2 ^ 31 : Int) ≤ p ∧ p ≤ 2 ^ 31 - 1 := by
    simpa [Instr.WellFormed, Instr.wellFormed, isSigned32] using hwf
  have hanswer : (BitVec.ofNat 32 (avail p.toNat s.dec.remainder.toNat)).toNat =
      avail p.toNat s.dec.remainder.toNat := by
    have hle := avail_le p.toNat s.dec.remainder.toNat
    exact (BitVec.toNat_ofNat _ _).trans (Nat.mod_eq_of_lt (by omega))
  have hneed := (need_le_iff_le_avail p.toNat _ s.dec.remainder).mpr le_rfl
  rw [respondWith_rlen, hanswer]
  constructor
  · obtain ⟨u, hu, hread, hfc, hresponse⟩ := exists_exec_decRead_of_goodSource
      (s := s.respondWith 0 0 false (BitVec.ofNat 32 (avail p.toNat s.dec.remainder.toNat)) 0)
      (count := (avail p.toNat s.dec.remainder.toNat : Nat)) hparams (Int.natCast_nonneg _) hsrc
      (.inl (hneed.trans (by omega)))
    have hdout := hread.length_dout (hneed.trans (by omega))
    refine ⟨u, hu, ?_, hfc, hdout, _, hneed, hread.src⟩
    obtain ⟨-, hrlen⟩ := hresponse _ hread.dout
    rw [hread.dout, List.length_append] at hdout
    rw [hrlen, Nat.add_left_cancel hdout, Int.toNat_natCast]
  · have hmore := (lt_need_iff_avail_lt p.toNat _ s.dec.remainder).mpr (Nat.lt_add_one _)
    omega

/-! ### The streaming round trip -/

/-- Taking the symbols that `k` bytes need takes the first `k` bytes, or all there are. -/
theorem feed_take_need (d : DecRegs) (vs : List Sym) (k : Nat) :
    (feed d (vs.take (need k d.remainder.toNat))).2 = (feed d vs).2.take k := by
  rcases Nat.lt_or_ge vs.length (need k d.remainder.toNat) with hlt | hge
  · have hfew : (feed d vs).2.length < k := by rwa [length_feed, ← lt_need_iff_avail_lt]
    rw [List.take_of_length_le hlt.le, List.take_of_length_le hfew.le]
  · have hsplit := feed_append d (vs.take (need k d.remainder.toNat)) (vs.drop (need k d.remainder.toNat))
    rw [List.take_append_drop] at hsplit
    rw [hsplit, List.take_left']
    rw [length_feed, List.length_take, Nat.min_eq_left hge, avail_need]

/-- From a group boundary the decoder's bytes are the unpacked ones (44_stream_decoder.md R178). -/
theorem feed_eq_unpackAll {d : DecRegs} (hd : d.remainder.toNat = 0) (vs : List Sym) :
    (feed d vs).2 = unpackAll vs := by
  have hnothing : leftoverBits d = [] := List.eq_nil_of_length_eq_zero (by rw [length_leftoverBits, hd, leftover])
  refine bitString_injective (by decide) ?_
  rw [bitString_feed, hnothing, List.nil_append, length_feed, hd, avail_boundary, bitString_unpackAll]

/-- A read of a used-up source is end of data (44_stream_decoder.md R165). -/
theorem exists_exec_decRead_of_src_nil {s : State} (hparams : ParamsOk s.params) (hsrc : s.src = []) {k : Int}
    (hk : 0 < k) :
    ∃ w, exec (.decRead k) s = .next w ∧ w.dout = s.dout ∧ w.rlen = 0 ∧ statusEOD w.status = true ∧
      statusFC w.status = 0 := by
  obtain ⟨w, hw, hread, hfc, hresponse⟩ :=
    exists_exec_decRead_of_goodSource (vs := []) (rest := []) hparams hk.le hsrc (.inr rfl)
  have hdout : w.dout = s.dout := by simpa [feed] using hread.dout
  obtain ⟨heod, hrlen⟩ := hresponse [] (by rw [hdout, List.append_nil])
  exact ⟨w, hw, hdout, hrlen, heod.trans (by simp [eodOf, hk]), hfc⟩

/-- Settles O55: the reads take the first symbols of the encoding, which are the first bytes of what was encoded. -/
theorem streamingRoundTrip : Obligations.StreamingRoundTrip := by
  intro s d cs counts hparams halphabet hempty hremainder hcs hcounts
  have hphase : d.dec.remainder.toNat = 0 := by rw [hremainder]; rfl
  obtain ⟨t, u, ht, hu, -, -, hsink⟩ := writeChunks_then_encFlush hempty hcs
  refine ⟨t, u, _, ht, hu, hsink, fun hsrc => ?_⟩
  generalize cs.flatMap Chunk.bytes = raw at hsrc ⊢
  have hsource : d.src = symbolSource d.params.alphabet (packAll raw) ++ [] := by
    rw [hsrc, encodeBytes, List.map_map, halphabet, List.append_nil]
    rfl
  obtain ⟨v, hv, hreads, hfc⟩ := exists_execAll_decRead_of_goodSource hparams hcounts hsource (.inr rfl)
  refine ⟨v, hv, ?_, hfc, fun hall => ?_⟩
  · rw [hreads.dout, feed_take_need, feed_eq_unpackAll hphase, unpackAll_packAll]
  · have hused : (packAll raw).length ≤ need counts.sum.toNat d.dec.remainder.toNat := by
      rw [packAll_length, hphase, need_boundary]
      exact encLen_mono hall
    have hdone := hreads.of_length_le hused le_rfl
    have hnil : v.src = [] := by simpa [symbolSource] using hdone.src
    refine ⟨?_, fun k hk => exists_exec_decRead_of_src_nil (hdone.params ▸ hparams) hnil hk⟩
    rw [hdone.phase le_rfl, hphase, Nat.zero_add, packAll_length, encLen_mod_eight]

end Sys2Proof.Proofs

/-! The faults of the commands (60_exceptions.md R190 to R205): which classes each command can raise and how it can
stop, where the strict reading ends a run, and that instances side by side do not touch one another. -/

namespace Sys2Proof.Proofs

open Sys2Proof.Machine Sys2Proof.Safety Sys2Proof.Laws

/-! ### Which faults a command can raise -/

/-- BULK_DEC and DEC_READ, the commands that look symbol bytes up in the inverse table (60_exceptions.md R192). -/
def ReadsSymbols (i : Instr) : Prop := (∃ offset length, i = .bulkDec offset length) ∨ ∃ count, i = .decRead count

/-- The class a command can end with: none; InvalidRange if it has an operand to check; CorruptData if it reads symbol
bytes (60_exceptions.md R190 to R192). -/
theorem statusFC_cases_of_exec {i : Instr} {s t : State} (h : exec i s = .next t) :
    statusFC t.status = 0 ∨ (statusFC t.status = 1 ∧ usesB i = true) ∨ (statusFC t.status = 2 ∧ ReadsSymbols i) := by
  cases i with
  | bulkEnc offset length =>
    cases h
    rcases bulkEncNext_cases offset length s with ⟨-, he⟩ | ⟨cause, -, he⟩ <;> rw [he]
    · exact .inl (by simp)
    · exact .inr (.inl ⟨by simp [faultFC], rfl⟩)
  | bulkDec offset length =>
    have hreads : ReadsSymbols (.bulkDec offset length) := .inl ⟨offset, length, rfl⟩
    cases h
    rcases bulkDecNext_cases offset length s with
      ⟨cause, -, he⟩ | ⟨-, ⟨-, he⟩ | ⟨-, ⟨x, -, he⟩ | ⟨vs, -, he⟩⟩⟩ <;> rw [he]
    · exact .inr (.inl ⟨by simp [faultFC], rfl⟩)
    · exact .inr (.inr ⟨by simp [faultFC], hreads⟩)
    · exact .inr (.inr ⟨by simp [faultFC], hreads⟩)
    · exact .inl (by simp)
  | encInit => cases h; exact .inl (by simp)
  | encWrite offset length =>
    cases h
    rcases encWriteNext_cases offset length s with ⟨-, he⟩ | ⟨cause, -, he⟩ <;> rw [he]
    · exact .inl (by simp)
    · exact .inr (.inl ⟨by simp [faultFC], rfl⟩)
  | encFlush => cases h; exact .inl (by simp)
  | decInit => cases h; exact .inl (by simp)
  | decRead count =>
    rw [exec] at h
    rcases execDecRead_cases count s with ⟨-, he⟩ | ⟨-, ⟨-, he⟩ | ⟨x, -, he⟩ | ⟨-, he⟩⟩ <;> rw [he] at h <;> cases h
    · exact .inr (.inl ⟨by simp [faultFC], rfl⟩)
    · exact .inr (.inr ⟨by simp [faultFC], .inr ⟨count, rfl⟩⟩)
    · exact .inl (by simp)
  | decAvail p =>
    cases h
    rcases decAvailNext_cases p s with ⟨-, he⟩ | ⟨-, he⟩ <;> rw [he]
    · exact .inr (.inl ⟨by simp [faultFC], rfl⟩)
    · exact .inl (by simp)

/-- CorruptData comes from a command that reads symbol bytes (60_exceptions.md R192). -/
theorem readsSymbols_of_corruptData {i : Instr} {s t : State} (h : exec i s = .next t) (hfc : statusFC t.status = 2) :
    ReadsSymbols i := by
  rcases statusFC_cases_of_exec h with h0 | ⟨h1, -⟩ | ⟨-, hreads⟩
  · simp [h0] at hfc
  · simp [h1] at hfc
  · exact hreads

/-- IllegalCommand is raised by words that are no command alone (60_exceptions.md R193). -/
theorem statusFC_ne_illegalCommand {i : Instr} {s t : State} (h : exec i s = .next t) : statusFC t.status ≠ 3 := by
  rcases statusFC_cases_of_exec h with hfc | ⟨hfc, -⟩ | ⟨hfc, -⟩ <;> simp [hfc]

/-- A command without operands has nothing to be invalid (60_exceptions.md R197). -/
theorem statusFC_eq_zero_of_no_operand {i : Instr} {s t : State} (h : exec i s = .next t)
    (hi : i = .encFlush ∨ i = .encInit ∨ i = .decInit) : statusFC t.status = 0 := by
  rcases statusFC_cases_of_exec h with hfc | ⟨-, hoperand⟩ | ⟨-, hreads⟩
  · exact hfc
  · rcases hi with rfl | rfl | rfl <;> cases hoperand
  · rcases hi with rfl | rfl | rfl <;> simp [ReadsSymbols] at hreads

/-- Settles O22: the classes each command can end with. -/
theorem whichCommandsRaiseWhat : Obligations.WhichCommandsRaiseWhat := fun _ _ _ h =>
  ⟨readsSymbols_of_corruptData h, statusFC_ne_illegalCommand h, statusFC_eq_zero_of_no_operand h⟩

/-! ### The operand test of DEC_READ, and its unanswered pull -/

theorem exec_decRead_of_neg {count : Int} (hcount : count < 0) (s : State) :
    exec (.decRead count) s = .next (s.respondWith 1 1 false 0 0) := by
  rw [exec, execDecRead, checkCount_of_neg hcount]
  rfl

/-- Settles O50: either command ends at its operand test. -/
theorem negativeCountFaults : Obligations.NegativeCountFaults := by
  rintro s n i (rfl | rfl) hn
  · exact exec_decRead_of_neg hn s
  · exact exec_decAvail_of_neg hn s

/-- Before the symbols it needs a pull is never answered (60_exceptions.md R201). -/
theorem readRun_silent {s : State} {count : Int} {vs : List Sym} {rest : List SrcAnswer} (hparams : ParamsOk s.params)
    (hneed : vs.length < need count.toNat s.dec.remainder.toNat)
    (hsrc : s.src = symbolSource s.params.alphabet vs ++ .silent :: rest) :
    s.readRun count = feedRun s.dec vs rest .silent := by
  obtain ⟨n, hn⟩ := Nat.exists_eq_add_of_lt hneed
  rw [readRun_of_symbolSource hparams hsrc (n := n + 1) hn, readLoop, List.append_nil, feedRun]

/-- Settles O49: the good symbols do not complete the command, and the pull after them stops it. -/
theorem decReadUnansweredPull : Obligations.DecReadUnansweredPull := by
  intro s count vs rest hparams hcount hneed hsrc
  rw [exec_decRead_of_nonneg hcount, readRun_silent hparams hneed hsrc]
  rfl

/-- The one way a command can stop is a pull of DEC_READ that is never answered (60_exceptions.md R201). -/
theorem eq_sourceSilent_of_exec_fault {i : Instr} {s : State} {f : Fault} (h : exec i s = .fault f) :
    f = .sourceSilent := by
  cases i with
  | decRead count =>
    rw [exec] at h
    rcases execDecRead_cases count s with ⟨-, he⟩ | ⟨-, ⟨-, he⟩ | ⟨x, -, he⟩ | ⟨-, he⟩⟩ <;> rw [he] at h <;> cases h
    rfl
  | _ => cases h

/-! ### The strict reading of CorruptData -/

section

variable {s : State} (hcommand : commandNext s = true)

include hcommand

/-- With a command word at the port the strict step goes on where the step ends without CorruptData. -/
theorem strictStep_eq_next_iff (t : State) :
    strictStep s = .next t ↔ step s = .next t ∧ statusFC t.status ≠ 2 := by
  rw [strictStep, hcommand]
  cases step s with
  | next u =>
    by_cases hfc : statusFC u.status = 2
    · simp only [hfc, decide_true, Bool.and_self, if_true, reduceCtorEq, Host.Outcome.next.injEq, false_iff, not_and]
      rintro rfl
      exact not_not_intro hfc
    · simp only [hfc, decide_false, Bool.and_false, Bool.false_eq_true, if_false, Host.Outcome.next.injEq]
      exact ⟨fun h => ⟨h, h ▸ hfc⟩, And.left⟩
  | fault f => simp
  | refused r => simp

/-- It ends the run where the step ends with CorruptData, if the step has not this stop itself. -/
theorem strictStep_eq_corruptDataEndsRun_iff (hstep : step s ≠ .fault .corruptDataEndsRun) :
    strictStep s = .fault .corruptDataEndsRun ↔ ∃ t, step s = .next t ∧ statusFC t.status = 2 := by
  rw [strictStep, hcommand]
  cases hs : step s with
  | next u => by_cases hfc : statusFC u.status = 2 <;> simp [hfc]
  | fault f => simpa [hs] using hstep
  | refused r => simp

end

/-- Settles O60: the step is `exec` of the command, which never stops at CorruptData itself and ends with it only after
reading symbol bytes. -/
theorem strictRunEndsAtCorruptData : Obligations.StrictRunEndsAtCorruptData := by
  intro s w rest i hhost hdecode
  have hcommand : commandNext s = true := by rw [commandNext, hhost]
  have hexec := stepRunsDecodedCommand s w rest i hhost hdecode
  have hstep : step s ≠ .fault .corruptDataEndsRun := fun h =>
    absurd (eq_sourceSilent_of_exec_fault (hexec.symm.trans h)) (by decide)
  refine ⟨(strictStep_eq_corruptDataEndsRun_iff hcommand hstep).trans (exists_congr fun t => ?_),
    strictStep_eq_next_iff hcommand⟩
  exact ⟨fun ⟨ht, hfc⟩ => ⟨ht, hfc, readsSymbols_of_corruptData (hexec.symm.trans ht) hfc⟩,
    fun ⟨ht, hfc, _⟩ => ⟨ht, hfc⟩⟩

/-! ### Instances side by side -/

/-- A running slot goes on exactly as its own block's step does. -/
theorem slotStep_running_eq_iff (s t : State) : Slot.step (.running s) = .running t ↔ step s = .next t := by
  rw [Slot.step]
  cases step s <;> simp

/-- No step of a slot, a stop included, writes its parameters. -/
theorem params_slotStep (x : Slot) : x.step.state.params = x.state.params := by
  cases x with
  | running s =>
    rw [Slot.step]
    cases hstep : step s with
    | next t => exact params_of_step hstep
    | fault f => rfl
    | refused r => rfl
  | stopped s f => rfl
  | refused s r => rfl

theorem params_slotStep_iterate (n : Nat) (x : Slot) : (Slot.step^[n] x).state.params = x.state.params := by
  induction n generalizing x with
  | zero => rfl
  | succ n ih => rw [Function.iterate_succ_apply, ih, params_slotStep]

/-- A step at position `j` is a step of the slot there and of no other (60_exceptions.md R203). -/
theorem getElem?_systemStep (j k : Nat) (sys : System) :
    (System.step j sys)[k]? = sys[k]?.map (Slot.step^[if j = k then 1 else 0]) := by
  rw [System.step, List.getElem?_modify]
  split <;> rfl

/-- Each slot ends where as many of its own steps as the schedule gives it bring it (60_exceptions.md R203). -/
theorem getElem?_systemRun (schedule : List Nat) (sys : System) (k : Nat) :
    (System.run schedule sys)[k]? = sys[k]?.map (Slot.step^[schedule.count k]) := by
  induction schedule generalizing sys with
  | nil => exact (Option.map_id' ..).symm
  | cons j js ih =>
    calc (System.run (j :: js) sys)[k]? = (System.step j sys)[k]?.map (Slot.step^[js.count k]) := ih (System.step j sys)
      _ = sys[k]?.map (Slot.step^[js.count k] ∘ Slot.step^[if j = k then 1 else 0]) := by
        rw [getElem?_systemStep, Option.map_map]
      _ = sys[k]?.map (Slot.step^[(j :: js).count k]) := by
        simp only [← Function.iterate_add, List.count_cons, beq_iff_eq]

/-- Every slot of a run has the parameters of one it began with. -/
theorem exists_mem_params_eq_of_mem_systemRun {schedule : List Nat} {sys : System} {x : Slot}
    (hx : x ∈ System.run schedule sys) : ∃ y ∈ sys, x.state.params = y.state.params := by
  obtain ⟨k, hk⟩ := List.mem_iff_getElem?.mp hx
  rw [getElem?_systemRun, Option.map_eq_some_iff] at hk
  obtain ⟨y, hy, rfl⟩ := hk
  exact ⟨y, List.mem_of_getElem? hy, params_slotStep_iterate _ y⟩

/-- The instances go on sharing the ROMs (40_alphabet_rom.md R95). -/
theorem sameRom_systemRun {sys : System} (h : System.sameRom sys) (schedule : List Nat) :
    System.sameRom (System.run schedule sys) := by
  intro x hx y hy
  obtain ⟨x', hx', hxparams⟩ := exists_mem_params_eq_of_mem_systemRun hx
  obtain ⟨y', hy', hyparams⟩ := exists_mem_params_eq_of_mem_systemRun hy
  rw [hxparams, hyparams]
  exact h x' hx' y' hy'

/-- Settles O59: by position, and the parameters with it. -/
theorem instancesAreIndependent : Obligations.InstancesAreIndependent := fun schedule sys =>
  ⟨getElem?_systemRun schedule sys, slotStep_running_eq_iff, fun h => sameRom_systemRun h schedule⟩

end Sys2Proof.Proofs

/-! Reset, and what else the host may do to a block (70_reset_and_hazards.md R220 to R240): its moves between commands,
a reset at any time, how far a command got that a reset cuts short, that commands end, and what is left of a stream that
was cut short. -/

namespace Sys2Proof.Proofs

open Sys2Proof.Machine Sys2Proof.Safety Sys2Proof.Laws

/-! ### The host's moves at the port -/

section

variable {s : State} {rest : List HostEvent}

/-- A move between commands that the port takes is the whole step (00_scope.md R12). -/
theorem step_of_take_moved {o : Host.Outcome State Fault Refusal} (h : s.take = .moved o) : step s = o := by
  rw [step, h]

theorem step_of_host_reset (hhost : s.host = .reset :: rest) : step s = .next (s.setHost rest).hardReset :=
  step_of_take_moved (by rw [State.take, hhost])

theorem step_of_host_resetDuring {w : CmdWord} {made : Nat} (hhost : s.host = .resetDuring w made :: rest) :
    step s = .next (resetDuringWord w made (s.setHost rest)) :=
  step_of_take_moved (by rw [State.take, hhost])

/-- A word that is no command ends in a next state too (30_encoding.md R74). -/
theorem step_of_illegalWord {w : CmdWord} {e : DecodeError} (hhost : s.host = .command w :: rest)
    (hdecode : decode w = .error e) : step s = .next (rejectWord e (s.setHost rest)) := by
  simp only [step, take_of_host_command hhost, hdecode]

end

/-- Settles O8: each move by itself is the step, and an idle port leaves the block as it is. -/
theorem hostMovesBetweenCommands : Obligations.HostMovesBetweenCommands := by
  intro s rest answers
  refine ⟨fun hidle => ?_, fun hhost => ?_, fun hhost => ?_, fun hhost => ?_, fun hhost => ?_⟩
  · rw [step, State.take, hidle]
  all_goals exact step_of_take_moved (by rw [State.take, hhost]; rfl)

/-- Settles O10: a reset in the middle of a word comes after some progress of the streams, one between commands after
none. -/
theorem hardwareResetRegisters : Obligations.HardwareResetRegisters := by
  rintro s e rest hhost (rfl | ⟨w, made, rfl⟩)
  · exact ⟨_, step_of_host_reset hhost, rfl, rfl, rfl, rfl, rfl, rfl, fun _ => rfl, rfl, fun _ => ⟨rfl, rfl, rfl⟩,
      ⟨0, rfl⟩, ⟨[], (List.append_nil _).symm⟩, ⟨[], (List.append_nil _).symm⟩⟩
  · obtain ⟨n, out, emitted, hreset⟩ := resetDuringWord_eq (s.setHost rest) w made
    refine ⟨_, (step_of_host_resetDuring hhost).trans (congrArg _ hreset), ?_⟩
    exact ⟨rfl, rfl, rfl, rfl, rfl, rfl, fun _ => rfl, rfl, nofun, ⟨n, rfl⟩, ⟨emitted, rfl⟩, ⟨out, rfl⟩⟩

/-! ### A command comes to its end -/

/-- A command that ends has pulled some of the source's answers, from its front (20_memory.md R55). -/
theorem exists_src_eq_drop_of_exec {i : Instr} {s t : State} (h : exec i s = .next t) : ∃ n, t.src = s.src.drop n := by
  obtain ⟨hsrc, -, -⟩ := streamEvents_commandEvents s h
  obtain ⟨n, out, emitted, hevents⟩ := streamEvents_eq s (commandEvents i s)
  exact ⟨n, by rw [← hsrc, hevents]; rfl⟩

/-- The pulls of a DEC_READ that wait for ever met an unanswered pull. -/
theorem silent_mem_src_of_stop {s : State} {count : Int} (h : (s.readRun count).stop = .silent) : .silent ∈ s.src := by
  obtain ⟨vs, -, -, -, ⟨-, hstop, -⟩ | ⟨-, hstop, -⟩ | ⟨x, -, hstop, -⟩ | ⟨-, -, hsrc⟩⟩ :=
    readLoop_cases s.params.alphabet s.src (need count.toNat s.dec.remainder.toNat) s.dec
  · cases hstop.symm.trans h
  · cases hstop.symm.trans h
  · cases hstop.symm.trans h
  · rw [hsrc]
    exact List.mem_append_right _ List.mem_cons_self

/-- Every command ends, but a DEC_READ that meets an unanswered pull (60_exceptions.md R201). -/
theorem exec_next_or_sourceSilent (i : Instr) (s : State) :
    (∃ t, exec i s = .next t) ∨
      exec i s = .fault .sourceSilent ∧ .silent ∈ s.src ∧ ∃ count, i = .decRead count := by
  cases i with
  | decRead count =>
    rw [exec]
    rcases execDecRead_cases count s with ⟨-, he⟩ | ⟨-, ⟨hstop, he⟩ | ⟨x, -, he⟩ | ⟨-, he⟩⟩
    · exact .inl ⟨_, he⟩
    · exact .inr ⟨he, silent_mem_src_of_stop hstop, count, rfl⟩
    · exact .inl ⟨_, he⟩
    · exact .inl ⟨_, he⟩
  | _ => exact .inl ⟨_, rfl⟩

/-- Settles O17: a word that is no command ends at once, and a command ends unless it meets an unanswered pull. -/
theorem commandsAlwaysEnd : Obligations.CommandsAlwaysEnd := by
  intro s w rest hhost
  cases hdecode : decode w with
  | error e =>
    rw [step_of_illegalWord hhost hdecode]
    exact ⟨fun hanswers => ⟨_, rfl, hanswers⟩, nofun⟩
  | ok i =>
    rw [stepRunsDecodedCommand s w rest i hhost hdecode]
    rcases exec_next_or_sourceSilent i { s with host := rest } with ⟨t, ht⟩ | ⟨hfault, hsilent, count, rfl⟩
    · obtain ⟨n, hsrc⟩ := exists_src_eq_drop_of_exec ht
      rw [ht]
      exact ⟨fun hanswers => ⟨t, rfl, fun x hx => hanswers x (List.mem_of_mem_drop (hsrc ▸ hx))⟩, nofun⟩
    · rw [hfault]
      refine ⟨fun hanswers => absurd rfl (hanswers _ hsilent), ?_⟩
      rintro _ ⟨⟩
      exact ⟨rfl, hsilent, count, rfl⟩

/-! ### A reset in the middle of a command -/

/-- The events of a command do not depend on what the host does next. -/
theorem commandEvents_setHost (i : Instr) (s : State) (events : List HostEvent) :
    commandEvents i (s.setHost events) = commandEvents i s := rfl

/-- A reset in the middle of a command's word is a reset in the middle of the command. -/
theorem resetDuringWord_of_decode {w : CmdWord} {i : Instr} (hdecode : decode w = .ok i) (made : Nat) (s : State) :
    resetDuringWord w made s = s.resetDuring i made := by
  rw [resetDuringWord, hdecode]

/-- What events do to the streams does not depend on what the host does next. -/
theorem streamEvents_setHost (s : State) (moves : List HostEvent) (events : List StreamEvent) :
    (s.setHost moves).streamEvents events = (s.streamEvents events).setHost moves := by
  induction events generalizing s with
  | nil => rfl
  | cons e events ih =>
    rw [streamEvents_cons, streamEvents_cons, ← ih]
    cases e <;> rfl

/-- Events move the streams only forward (70_reset_and_hazards.md R221). -/
theorem streams_streamEvents (s : State) (events : List StreamEvent) :
    (∃ n, (s.streamEvents events).src = s.src.drop n) ∧
      (∃ emitted, (s.streamEvents events).sink = s.sink ++ emitted) ∧
      ∃ out, (s.streamEvents events).dout = s.dout ++ out := by
  obtain ⟨n, out, emitted, hevents⟩ := streamEvents_eq s events
  rw [hevents]
  exact ⟨⟨n, rfl⟩, ⟨emitted, rfl⟩, ⟨out, rfl⟩⟩

/-- The events of ENC_WRITE and ENC_FLUSH are emissions to `SINK` (43_stream_encoder.md R141, R144). -/
theorem exists_commandEvents_eq_emitSink {i : Instr} (hi : i = .encFlush ∨ ∃ o l, i = .encWrite o l) (s : State) :
    ∃ bytes : List Byte, commandEvents i s = bytes.map .emitSink := by
  rcases hi with rfl | ⟨offset, length, rfl⟩
  · exact ⟨_, rfl⟩
  · rw [commandEvents]
    cases checkRange s.params.ibufSize offset length with
    | some cause => exact ⟨[], rfl⟩
    | none => exact ⟨_, rfl⟩

/-- Of emissions to `SINK` the first `made` are the first `made` bytes. -/
theorem sink_streamEvents_take_emitSink (s : State) (bytes : List Byte) (made : Nat) :
    (s.streamEvents ((bytes.map .emitSink).take made)).sink =
      (s.streamEvents (bytes.map .emitSink)).sink.take (s.sink.length + made) := by
  rw [← List.map_take, streamEvents_emitSink, streamEvents_emitSink, emitSink_sink, emitSink_sink,
    List.take_length_add_append]

theorem readEvents_zero (a : Alphabet) (answers : List SrcAnswer) (d : DecRegs) : readEvents a answers 0 d = [] := by
  cases answers with
  | nil => rfl
  | cons x rest => cases x <;> rfl

/-- One good symbol at the head of the source (20_memory.md R61). -/
theorem readEvents_good (a : Alphabet) {b : Byte} {v : Sym} (h : inv a b = some v) (rest : List SrcAnswer) (n : Nat)
    (d : DecRegs) :
    readEvents a (.byte b :: rest) (n + 1) d =
      .pull :: ((decPush d v).2.toList.map .emitDout ++ readEvents a rest n (decPush d v).1) := by
  rw [readEvents, h]

/-- A pull that gives no good symbol is the last event; any other takes the symbol from the head of the source. -/
theorem readEvents_succ_cases (a : Alphabet) (answers : List SrcAnswer) (n : Nat) (d : DecRegs) :
    readEvents a answers (n + 1) d = [.pull] ∨
      ∃ b v rest, answers = .byte b :: rest ∧ inv a b = some v := by
  cases answers with
  | nil => exact .inl rfl
  | cons x rest =>
    cases x with
    | short => exact .inl rfl
    | silent => exact .inl rfl
    | byte b =>
      cases hb : inv a b with
      | none => exact .inl (by rw [readEvents, hb])
      | some v => exact .inr ⟨b, v, rest, rfl, hb⟩

/-- The first `made` events of the loop are those of some fewer pulls, perhaps without the last emission of these. -/
theorem take_readEvents (a : Alphabet) (answers : List SrcAnswer) (n : Nat) (d : DecRegs) (made : Nat) :
    ∃ g ≤ n, readEvents a answers g d = (readEvents a answers n d).take made ∨
      ∃ b, readEvents a answers g d = (readEvents a answers n d).take made ++ [.emitDout b] := by
  induction n generalizing answers d made with
  | zero => exact ⟨0, le_rfl, .inl (by rw [readEvents_zero, List.take_nil])⟩
  | succ n ih =>
    rcases made with _ | made
    · exact ⟨0, Nat.zero_le _, .inl (readEvents_zero ..)⟩
    rcases readEvents_succ_cases a answers n d with hlast | ⟨b, v, rest, rfl, hgood⟩
    · exact ⟨n + 1, le_rfl, .inl (by simp [hlast])⟩
    by_cases hmade : (decPush d v).2.toList.length ≤ made
    · obtain ⟨g, hg, hfirst⟩ := ih rest (decPush d v).1 (made - (decPush d v).2.toList.length)
      refine ⟨g + 1, Nat.succ_le_succ hg, ?_⟩
      rw [readEvents_good a hgood, readEvents_good a hgood, List.take_succ_cons, List.take_append, List.length_map,
        List.take_of_length_le (by rwa [List.length_map])]
      simpa using hfirst
    · cases hbyte : (decPush d v).2 with
      | none => simp [hbyte] at hmade
      | some x =>
        obtain rfl : made = 0 := by simpa [hbyte] using hmade
        exact ⟨1, Nat.le_add_left 1 n, .inr ⟨x, by
          rw [readEvents_good a hgood, readEvents_good a hgood, hbyte, readEvents_zero]; rfl⟩⟩

/-- Good symbols make one event each, and one for each byte they complete. -/
theorem length_readEvents_symbols {a : Alphabet} (ha : a.toList.Nodup) (vs : List Sym) (rest : List SrcAnswer)
    (d : DecRegs) :
    (readEvents a (symbolSource a vs ++ rest) vs.length d).length = vs.length + avail vs.length d.remainder.toNat := by
  rw [← length_feed]
  induction vs generalizing d with
  | nil => rw [List.length_nil, readEvents_zero]; rfl
  | cons v vs ih =>
    rw [symbolSource, List.map_cons, List.cons_append, List.length_cons, readEvents_good a (inv_fwd ha v), feed,
      ← symbolSource, List.length_cons, List.length_append, List.length_append, List.length_map, ih]
    omega

/-- The first symbols of a source come before the others. -/
theorem symbolSource_take_append_drop (a : Alphabet) (vs : List Sym) (g : Nat) :
    symbolSource a (vs.take g) ++ symbolSource a (vs.drop g) = symbolSource a vs := by
  rw [symbolSource, symbolSource, ← List.map_append, List.take_append_drop, symbolSource]

section

variable {s : State} {vs : List Sym} {rest : List SrcAnswer}

variable (hparams : ParamsOk s.params) (hsrc : s.src = symbolSource s.params.alphabet vs ++ rest)

include hparams hsrc

/-- The events of good symbols take them from the source and emit the bytes they complete. -/
theorem streamEvents_readEvents_symbols (d : DecRegs) :
    s.streamEvents (readEvents s.params.alphabet s.src vs.length d) = (s.setSrc rest).emitDout (feed d vs).2 := by
  have hloop := readLoop_symbols (inv_fwd hparams.distinct) vs rest 0 d
  rw [readLoop_zero, List.append_nil, Nat.add_zero] at hloop
  rw [streamEvents_readEvents, hsrc, symbolSource, hloop]

/-- The first `made` events of pulls of good symbols are `g` pulls and the emission of every byte these complete, or of
all but the last (20_memory.md R61). -/
theorem streams_take_readEvents_symbols {d : DecRegs} {made : Nat}
    (hmade : made ≤ vs.length + avail vs.length d.remainder.toNat) :
    ∃ g k, g ≤ vs.length ∧
      (s.streamEvents ((readEvents s.params.alphabet s.src vs.length d).take made)).src =
        symbolSource s.params.alphabet (vs.drop g) ++ rest ∧
      (s.streamEvents ((readEvents s.params.alphabet s.src vs.length d).take made)).dout.length = s.dout.length + k ∧
      g + k = made ∧ (k = avail g d.remainder.toNat ∨ k + 1 = avail g d.remainder.toNat) := by
  obtain ⟨g, hg, hfirst⟩ := take_readEvents s.params.alphabet s.src vs.length d made
  have hpulled : (vs.take g).length = g := by rw [List.length_take, Nat.min_eq_left hg]
  have hsplit : s.src = symbolSource s.params.alphabet (vs.take g) ++
      (symbolSource s.params.alphabet (vs.drop g) ++ rest) := by
    rw [hsrc, ← List.append_assoc, symbolSource_take_append_drop]
  have hstreams := streamEvents_readEvents_symbols hparams hsplit d
  have hevents := length_readEvents_symbols hparams.distinct (vs.take g)
    (symbolSource s.params.alphabet (vs.drop g) ++ rest) d
  rw [hpulled] at hstreams
  rw [← hsplit, hpulled] at hevents
  have hbytes : (feed d (vs.take g)).2.length = avail g d.remainder.toNat := by rw [length_feed, hpulled]
  have hcut : ((readEvents s.params.alphabet s.src vs.length d).take made).length = made := by
    rw [List.length_take, hsrc, length_readEvents_symbols hparams.distinct, Nat.min_eq_left hmade]
  rcases hfirst with hfirst | ⟨b, hfirst⟩
  · rw [hfirst] at hstreams hevents
    refine ⟨g, avail g d.remainder.toNat, hg, ?_, ?_, hevents.symm.trans hcut, .inl rfl⟩
    · rw [hstreams]; rfl
    · rw [hstreams, emitDout_dout, List.length_append, hbytes]; rfl
  · rw [hfirst, List.length_append, hcut, List.length_singleton] at hevents
    rw [hfirst, streamEvents_append] at hstreams
    obtain ⟨-, -, out, hout⟩ := streams_streamEvents s ((readEvents s.params.alphabet s.src vs.length d).take made)
    have hlast : out.length + 1 = avail g d.remainder.toNat := by
      have hdout := congrArg List.length (congrArg State.dout hstreams)
      simp only [streamEvents_cons, streamEvents_nil, State.streamEvent, emitDout_dout, setSrc_dout, hout,
        List.length_append, List.length_singleton, hbytes] at hdout
      omega
    refine ⟨g, out.length, hg, congrArg State.src hstreams, ?_, by omega, .inr hlast⟩
    rw [hout, List.length_append]

end

section

variable {i : Instr} {s u : State} (h : exec i s = .next u) (made : Nat)

include h

/-- The first events of a command that ends bring its streams part of the way. -/
theorem streams_take_commandEvents :
    (∃ n, u.src = (s.streamEvents ((commandEvents i s).take made)).src.drop n) ∧
      (∃ emitted, u.sink = (s.streamEvents ((commandEvents i s).take made)).sink ++ emitted) ∧
      ∃ out, u.dout = (s.streamEvents ((commandEvents i s).take made)).dout ++ out := by
  obtain ⟨hsrc, hsink, hdout⟩ := streamEvents_commandEvents s h
  rw [← hsrc, ← hsink, ← hdout]
  have hrest := streams_streamEvents (s.streamEvents ((commandEvents i s).take made)) ((commandEvents i s).drop made)
  rwa [← streamEvents_append, List.take_append_drop] at hrest

/-- Of an encoder command they are emissions of its first bytes. -/
theorem sink_take_commandEvents (hi : i = .encFlush ∨ ∃ o l, i = .encWrite o l) :
    (s.streamEvents ((commandEvents i s).take made)).sink = u.sink.take (s.sink.length + made) := by
  obtain ⟨-, hsink, -⟩ := streamEvents_commandEvents s h
  obtain ⟨bytes, hbytes⟩ := exists_commandEvents_eq_emitSink hi s
  rw [← hsink, hbytes, sink_streamEvents_take_emitSink]

end

/-- Settles O11: the streams of the state after the reset are those after the first `made` events of the command. -/
theorem resetDuringCommandKeepsProgress : Obligations.ResetDuringCommandKeepsProgress := by
  intro s w made rest i hhost hdecode
  have hstep : step s =
      .next ((s.streamEvents ((commandEvents i s).take made)).setHost rest).hardReset := by
    rw [step_of_host_resetDuring hhost, resetDuringWord_of_decode hdecode, State.resetDuring, commandEvents_setHost,
      streamEvents_setHost]
  refine ⟨_, hstep, fun u hu => ?_, ?_⟩
  · obtain ⟨hsrc, hsink, hdout⟩ := streams_take_commandEvents hu made
    refine ⟨hsrc, hsink, hdout, sink_take_commandEvents hu made, fun hall => ?_⟩
    rw [List.take_of_length_le hall]
    exact streamEvents_commandEvents s hu
  · rintro count vs answers rfl hcount hparams hneed hsrc hmade
    have hevents : commandEvents (.decRead count) s = readEvents s.params.alphabet s.src vs.length s.dec := by
      rw [commandEvents, checkCount_of_nonneg hcount, hneed]
    rw [hevents]
    refine streams_take_readEvents_symbols hparams hsrc ?_
    rwa [hneed, avail_need, ← hneed]

/-! ### A stream that was cut short -/

/-- The first symbols complete the first bytes. -/
theorem feed_take (d : DecRegs) (vs : List Sym) (g : Nat) :
    (feed d (vs.take g)).2 = (feed d vs).2.take (avail (min g vs.length) d.remainder.toNat) := by
  have hsplit := feed_append d (vs.take g) (vs.drop g)
  rw [List.take_append_drop] at hsplit
  rw [hsplit, List.take_left']
  rw [length_feed, List.length_take]

/-- Settles O56: the read takes all the symbols that are left, which are the first ones of the encoding. -/
theorem truncatedStreamIsAPrefix : Obligations.TruncatedStreamIsAPrefix := by
  intro d raw g count hparams hremainder hsrc hcount
  have hphase : d.dec.remainder.toNat = 0 := by rw [hremainder]; rfl
  have hsource : d.src = symbolSource d.params.alphabet ((packAll raw).take g) ++ [] := by
    rw [hsrc, encodeBytes, symbolSource, List.append_nil, ← List.map_take, List.map_map]
    rfl
  obtain ⟨t, ht, hread, hfc, -⟩ :=
    exists_exec_decRead_of_goodSource hparams ((Int.natCast_nonneg _).trans hcount) hsource (.inr rfl)
  have hall : ((packAll raw).take g).length ≤ need count.toNat d.dec.remainder.toNat := by
    calc ((packAll raw).take g).length ≤ (packAll raw).length := List.length_take_le' ..
      _ = encLen raw.length := packAll_length raw
      _ ≤ encLen count.toNat := encLen_mono (by omega)
      _ = need count.toNat d.dec.remainder.toNat := by rw [hphase, need_boundary]
  have hdone := hread.of_length_le hall le_rfl
  have hnil : t.src = [] := by rw [hdone.src, List.drop_length]; rfl
  refine ⟨t, ht, hfc, ?_, fun k hk => exists_exec_decRead_of_src_nil (hdone.params ▸ hparams) hnil hk⟩
  rw [hdone.dout, List.take_length, feed_take, feed_eq_unpackAll hphase, unpackAll_packAll, packAll_length, hphase]

end Sys2Proof.Proofs
